-- ==== Sys2Proof/Word.lean ====
section
/-!
DEFINITION. The one word type of the block: an 8-bit byte (spec/20_memory.md R31, spec/00_scope.md R2 `DATA_BITS`).
Bus addresses are natural numbers below `2 ^ ADDR_BITS` (spec/92_eei_decisions.md D2) and are no word type here:
the address width is a parameter of the configuration.
-/

namespace Sys2Proof

/-- The value of one bus access and the content of one memory byte or display cell (R31). -/
abbrev Byte := BitVec 8

end Sys2Proof
end

