-- ==== Sys2Proof/Config.lean ====
section
/-!
DEFINITION. What an implementation fixes: the constants the source states, the configuration record `CFG` of
spec/00_scope.md R2 with its reference instantiation `REFMAP`, the closed sets of names the spec uses (regions,
lines, input vectors, images, agents), and the free values (environment inputs and open-bus draws).
-/

namespace Sys2Proof

namespace Config

/-- `WINDOW`: bytes in the low window and in one bank (R2, source-fixed). -/
def window : Nat := 24576

/-- `NBANKS_IMG`: window-sized chunks in the data-bank image (R2, source-fixed). -/
def nbanksImg : Nat := 6

/-- `DBANK_SIZE = NBANKS_IMG * WINDOW` (R2, R13). -/
def dbankSize : Nat := nbanksImg * window

/-- `NBANKS_SEL`: selectable windows (R2, source-fixed). -/
def nbanksSel : Nat := 4

/-- `DISP_LEN`: character cells in the display buffer (R2, source-fixed). -/
def dispLen : Nat := 20

/-- `TIMER_RATE` in hertz (R2, R168, R190): timing only. No rule and no definition of the model reads it. -/
def timerRateHz : Nat := 60

end Config

/-- The configuration record `CFG` of R2: the parameters the document leaves open (log entry 1).
`State` carries one, and no operation changes it (R24), so a statement over all states holds for every map. -/
structure Cfg where
  /-- `ADDR_BITS` (D2). -/
  addrBits : Nat
  /-- `LOW_BASE` (D1). -/
  lowBase : Nat
  /-- `WRAM_BASE` (D3). -/
  wramBase : Nat
  /-- `WRAM_SIZE` (D3). -/
  wramSize : Nat
  /-- `PROG_BASE` (D4). -/
  progBase : Nat
  /-- `PROG_SIZE` (D4). -/
  progSize : Nat
  /-- `A_PRNSTAT` (D1). -/
  aPrnstat : Nat
  /-- `A_SYSIN` (D1). -/
  aSysin : Nat
  /-- `A_DISP` (D1). -/
  aDisp : Nat
  /-- `A_KEY1` (D1). -/
  aKey1 : Nat
  /-- `A_KEY2` (D1). -/
  aKey2 : Nat
  /-- `A_DIPSW` (D1). -/
  aDipsw : Nat
  /-- `A_TONE_ON` (D1). -/
  aToneOn : Nat
  /-- `A_TONE_OFF` (D1). -/
  aToneOff : Nat
  /-- `A_BANKSEL` (D1). -/
  aBanksel : Nat
  /-- `PRN_RESERVED` (D5): a finite set, listed without repeats (log entry 19). -/
  prnReserved : List Nat
  /-- `TONE_FREQ` (D25): an output that no rule reads (R20). -/
  toneFreq : Nat
  /-- `DISP_TERM` (D13). -/
  dispTerm : Byte
  /-- `SPACE` (D14). -/
  space : Byte
  deriving DecidableEq, Repr

/-- FREE VALUE (log entry 3): `TONE_FREQ` under `REFMAP`, to which R2 gives no reference value. No body: nothing
constrains it, and no rule depends on it (R20, D25). -/
opaque Config.refToneFreq : Nat

/-- The reference instantiation `REFMAP` of R2: the spec's example numbers, no statement of the source. -/
def Cfg.refmap : Cfg where
  addrBits := 16
  lowBase := 0x0000
  wramBase := 0x6000
  wramSize := 0x1000
  progBase := 0xC000
  progSize := 0x4000
  aPrnstat := 0x9000
  aSysin := 0x9001
  aDisp := 0x9002
  aKey1 := 0x9003
  aKey2 := 0x9004
  aDipsw := 0x9005
  aToneOn := 0x900A
  aToneOff := 0x900B
  aBanksel := 0x900C
  prnReserved := [0x9006, 0x9007, 0x900D, 0x900E]
  toneFreq := Config.refToneFreq
  dispTerm := 0x00
  space := 0x20

/-- The fourteen regions an address can belong to (R35, R52). -/
inductive Region where
  | low | wram | prnstat | sysin | disp | key1 | key2 | dipsw | toneOn | toneOff | banksel | prnrsv | prog | unmapped
  deriving DecidableEq, Repr

/-- The two interrupt request lines (R17, R162). -/
inductive Line where
  | firq | nmi
  deriving DecidableEq, Repr

/-- The four input vectors of the input collaborator (R22). -/
inductive InputPort where
  | sys | key1 | key2 | dipsw
  deriving DecidableEq, Repr

/-- Which image a `LoadError` names (R184). -/
inductive ImageName where
  | program | databank
  deriving DecidableEq, Repr

/-- The parties that make the block take a step (00_scope.md section 5). -/
inductive Agent where
  | busMaster | timer | inputSource | resetSource | displayReader | imageLoader
  deriving DecidableEq, Repr

namespace Config

/-- FREE VALUE (log entry 8): `draw_byte()`, the value of an open-bus read (R92). No body: nothing constrains it.
The first argument is the state's draw counter, so every read may see a fresh value; the second is the address read. -/
opaque openBus : Nat → Nat → Byte

/-- FREE VALUE (log entry 9): `input(NAME)`, the byte the environment supplies for an input vector at the moment of
the read (R22). No body: nothing constrains it. The second argument is the state's draw counter. -/
opaque input : InputPort → Nat → Byte

end Config

end Sys2Proof
end

