-- ==== Sys2Proof/Machine/Event.lean ====
section
/-!
DEFINITION. What a collaborator presents to the block: a bus transaction, as the transaction word `T` of
spec/30_encoding.md R51, or a signal operation on a dedicated input, which has no encoding (R55). A trace (R62) is a
list of these; it is the block's substitute for a program.
-/

namespace Sys2Proof

/-- One operation as presented, before decode. -/
inductive Event where
  /-- A bus transaction, by its word `T = rw ++ addr ++ data` (R51; log entry 13). -/
  | bus (word : Nat)
  | tick
  | coin (old : Bool)
  | service (old : Bool)
  | assertLine (line : Line)
  | obs (line : Line)
  | render
  | reset
  | load (prog dbank : List Byte)
  deriving DecidableEq, Repr

/-- Who can present it (R55, 00_scope.md section 5). `ASSERT` belongs to the event source of its line (R126, R162;
log entry 17) and never to the bus master. -/
def Event.agent : Event → Agent
  | .bus _ => .busMaster
  | .obs _ => .busMaster
  | .tick => .timer
  | .coin _ => .inputSource
  | .service _ => .inputSource
  | .assertLine .firq => .timer
  | .assertLine .nmi => .inputSource
  | .render => .displayReader
  | .reset => .resetSource
  | .load _ _ => .imageLoader

end Sys2Proof
end

