-- ==== Sys2Proof/Machine/AddressMap.lean ====
section
/-!
DEFINITION. The address map (spec/20_memory.md R35, spec/30_encoding.md R52) and the conditions under which a
configuration is well formed (spec/00_scope.md R3).
-/

namespace Sys2Proof

/-- `in_range(a, base, size)` of 00_scope.md section 6, for a range of `size` addresses from `base`. -/
def inRange (a base size : Nat) : Bool := decide (base ≤ a) && decide (a < base + size)

/-- One entry of the address map: a region and the range of addresses it answers at. -/
structure MapEntry where
  region : Region
  base : Nat
  size : Nat
  deriving DecidableEq, Repr

/-- Whether the entry answers at address `a`. -/
def MapEntry.covers (e : MapEntry) (a : Nat) : Bool := inRange a e.base e.size

/-- Two entries share no address: one lies wholly below the other. -/
def MapEntry.disjoint (e f : MapEntry) : Bool :=
  Nat.ble (e.base + e.size) f.base || Nat.ble (f.base + f.size) e.base

/-- The entries share no address pairwise. -/
def pairwiseDisjoint : List MapEntry → Bool
  | [] => true
  | e :: m => m.all (fun f => e.disjoint f) && pairwiseDisjoint m

/-- Every range and single address of R2 (R35); `UNMAPPED` is the absence of an entry. -/
def Cfg.addressMap (c : Cfg) : List MapEntry :=
  [⟨.low, c.lowBase, Config.window⟩,
   ⟨.wram, c.wramBase, c.wramSize⟩,
   ⟨.prnstat, c.aPrnstat, 1⟩,
   ⟨.sysin, c.aSysin, 1⟩,
   ⟨.disp, c.aDisp, 1⟩,
   ⟨.key1, c.aKey1, 1⟩,
   ⟨.key2, c.aKey2, 1⟩,
   ⟨.dipsw, c.aDipsw, 1⟩,
   ⟨.toneOn, c.aToneOn, 1⟩,
   ⟨.toneOff, c.aToneOff, 1⟩,
   ⟨.banksel, c.aBanksel, 1⟩,
   ⟨.prog, c.progBase, c.progSize⟩]
  ++ c.prnReserved.map (fun a => ⟨.prnrsv, a, 1⟩)

/-- `region(addr)` (R52): the region of the entry that answers at the address, `UNMAPPED` where none does.
In a well-formed configuration at most one entry answers, so the order of the map is immaterial. -/
def region (c : Cfg) (addr : Nat) : Region :=
  match c.addressMap.find? (fun e => e.covers addr) with
  | some e => e.region
  | none => .unmapped

/-- R3: a configuration is well formed. (a) every range lies inside the address space; (b) the ranges are pairwise
disjoint; (c) the low window has `WINDOW` addresses, by the form of `addressMap`; (d) neither writable nor program
memory is empty; (e) the low window lies below the program range. -/
def Cfg.wf (c : Cfg) : Bool :=
  c.addressMap.all (fun e => Nat.ble (e.base + e.size) (2 ^ c.addrBits)) &&
  pairwiseDisjoint c.addressMap &&
  Nat.ble 1 c.wramSize && Nat.ble 1 c.progSize &&
  Nat.blt (c.lowBase + Config.window - 1) c.progBase

/-- The address is on the bus (R30) and belongs to region `r`: what R72 to R93 ask of an operand. -/
def Cfg.operandIn (c : Cfg) (addr : Nat) (r : Region) : Bool :=
  decide (addr < 2 ^ c.addrBits) && decide (region c addr = r)

end Sys2Proof
end

