-- ==== Sys2Proof/Syntax.lean ====
section
/-!
DEFINITION. The operations of the block: one constructor per row of spec/opcode_table.json, in the table's order.
A bus read keeps its address where the operation uses it; a bus write keeps its address where the operation uses it,
and its data byte always (R50, R56). A read carries no data byte: the field is ignored by decode (R51, R52).
-/

namespace Sys2Proof

/-- One decoded operation (spec/30_encoding.md R53, R54, R55). -/
inductive Instr where
  /-- `RD_LOW` (R72). -/
  | rdLow (addr : Nat)
  /-- `RD_WRAM` (R74). -/
  | rdWram (addr : Nat)
  /-- `RD_PROG` (R76). -/
  | rdProg (addr : Nat)
  /-- `RD_PRNRSV` (R90). -/
  | rdPrnrsv (addr : Nat)
  /-- `RD_UNMAPPED` (R92). -/
  | rdUnmapped (addr : Nat)
  /-- `RD_BANKSEL` (R101). -/
  | rdBanksel
  /-- `RD_DISPRDY` (R111). -/
  | rdDisprdy
  /-- `RD_PRNSTAT` (R140). -/
  | rdPrnstat
  /-- `RD_SYSIN` (R141). -/
  | rdSysin
  /-- `RD_KEY1` (R142). -/
  | rdKey1
  /-- `RD_KEY2` (R143). -/
  | rdKey2
  /-- `RD_DIPSW` (R146). -/
  | rdDipsw
  /-- `RD_TONE_ON` (R150). -/
  | rdToneOn
  /-- `RD_TONE_OFF` (R151). -/
  | rdToneOff
  /-- `WR_LOW` (R73). -/
  | wrLow (addr : Nat) (data : Byte)
  /-- `WR_WRAM` (R75). -/
  | wrWram (addr : Nat) (data : Byte)
  /-- `WR_PROG` (R77). -/
  | wrProg (addr : Nat) (data : Byte)
  /-- `WR_PRNRSV` (R91). -/
  | wrPrnrsv (addr : Nat) (data : Byte)
  /-- `WR_UNMAPPED` (R93). -/
  | wrUnmapped (addr : Nat) (data : Byte)
  /-- `WR_BANKSEL` (R100). -/
  | wrBanksel (data : Byte)
  /-- `WR_DISP` (R110). -/
  | wrDisp (data : Byte)
  /-- `WR_FIRQACK` (R122). -/
  | wrFirqack (data : Byte)
  /-- `WR_NMIACK` (R125). -/
  | wrNmiack (data : Byte)
  /-- `WR_KEY1` (R144). -/
  | wrKey1 (data : Byte)
  /-- `WR_KEY2` (R145). -/
  | wrKey2 (data : Byte)
  /-- `WR_OUTCTL` (R147). -/
  | wrOutctl (data : Byte)
  /-- `WR_TONE_ON` (R148). -/
  | wrToneOn (data : Byte)
  /-- `WR_TONE_OFF` (R149). -/
  | wrToneOff (data : Byte)
  /-- `TICK` (R121). -/
  | tick
  /-- `COIN old` (R123): `old` is the level of the coin input before the edge, true = pressed. -/
  | coin (old : Bool)
  /-- `SERVICE old` (R124): `old` is the level of the service input before the edge, true = pressed. -/
  | service (old : Bool)
  /-- `ASSERT line` (R126). -/
  | assertLine (line : Line)
  /-- `OBS line` (R127). -/
  | obs (line : Line)
  /-- `RENDER` (R113). -/
  | render
  /-- `RESET` (R180). -/
  | reset
  /-- `LOAD prog, dbank` (R184). -/
  | load (prog dbank : List Byte)
  deriving DecidableEq, Repr

end Sys2Proof
end

