-- ==== Sys2Proof/WellFormed.lean ====
section
/-!
DEFINITION. Which operations exist under a configuration: an operation that carries an address carries a bus address
of its own region (R72 to R77, R90 to R93). Every other operand value is legal (R57, R100, R110, R123, R184).
-/

namespace Sys2Proof

/-- The operation is one that decode can give under `c`. -/
def Instr.wellFormed (c : Cfg) : Instr → Bool
  | .rdLow a => c.operandIn a .low
  | .rdWram a => c.operandIn a .wram
  | .rdProg a => c.operandIn a .prog
  | .rdPrnrsv a => c.operandIn a .prnrsv
  | .rdUnmapped a => c.operandIn a .unmapped
  | .wrLow a _ => c.operandIn a .low
  | .wrWram a _ => c.operandIn a .wram
  | .wrProg a _ => c.operandIn a .prog
  | .wrPrnrsv a _ => c.operandIn a .prnrsv
  | .wrUnmapped a _ => c.operandIn a .unmapped
  | .rdBanksel | .rdDisprdy | .rdPrnstat | .rdSysin | .rdKey1 | .rdKey2 | .rdDipsw | .rdToneOn | .rdToneOff => true
  | .wrBanksel _ | .wrDisp _ | .wrFirqack _ | .wrNmiack _ | .wrKey1 _ | .wrKey2 _ | .wrOutctl _ => true
  | .wrToneOn _ | .wrToneOff _ => true
  | .tick | .coin _ | .service _ | .assertLine _ | .obs _ | .render | .reset | .load _ _ => true

end Sys2Proof
end

