-- ==== Sys2Proof/Decode.lean ====
section
/-!
DEFINITION. Decode of a presented operation (spec/30_encoding.md R50 to R55) and, after it, the encoder. Decode is a
function of the access kind and of the region of the address only (R52); the data byte is an operand and takes no
part in it.
-/

namespace Sys2Proof

/-- Why a word is no transaction. -/
inductive DecodeReject where
  /-- The word has a bit at or above `1 + ADDR_BITS + 8`, where the transaction word has none (R51). -/
  | wordTooWide
  deriving DecidableEq, Repr

/-- `T = rw ++ addr ++ data` (R51): `data` in bits 7:0, `addr` above it, `rw` (1 = write) on top. -/
def busWord (c : Cfg) (write : Bool) (addr : Nat) (data : Byte) : Nat :=
  (write.toNat * 2 ^ c.addrBits + addr) * 256 + data.toNat

/-- The `data` field of a transaction word: bits 7:0 (R51). -/
def wordData (word : Nat) : Byte := BitVec.ofNat 8 word

/-- The `addr` field of a transaction word: the `ADDR_BITS` bits above the data (R51). -/
def wordAddr (c : Cfg) (word : Nat) : Nat := word / 256 % 2 ^ c.addrBits

/-- The `rw` field of a transaction word: the bit above the address, 1 = write (R51). -/
def wordWrite (c : Cfg) (word : Nat) : Bool := decide (word / 256 / 2 ^ c.addrBits = 1)

/-- Read decode (R53). -/
def decodeRead (c : Cfg) (addr : Nat) : Instr :=
  match region c addr with
  | .low => .rdLow addr
  | .wram => .rdWram addr
  | .prog => .rdProg addr
  | .prnrsv => .rdPrnrsv addr
  | .unmapped => .rdUnmapped addr
  | .banksel => .rdBanksel
  | .disp => .rdDisprdy
  | .prnstat => .rdPrnstat
  | .sysin => .rdSysin
  | .key1 => .rdKey1
  | .key2 => .rdKey2
  | .dipsw => .rdDipsw
  | .toneOn => .rdToneOn
  | .toneOff => .rdToneOff

/-- Write decode (R54). -/
def decodeWrite (c : Cfg) (addr : Nat) (data : Byte) : Instr :=
  match region c addr with
  | .low => .wrLow addr data
  | .wram => .wrWram addr data
  | .prog => .wrProg addr data
  | .prnrsv => .wrPrnrsv addr data
  | .unmapped => .wrUnmapped addr data
  | .banksel => .wrBanksel data
  | .disp => .wrDisp data
  | .prnstat => .wrFirqack data
  | .sysin => .wrNmiack data
  | .key1 => .wrKey1 data
  | .key2 => .wrKey2 data
  | .dipsw => .wrOutctl data
  | .toneOn => .wrToneOn data
  | .toneOff => .wrToneOff data

/-- Decode of a transaction word (R51 to R54). Every word of `1 + ADDR_BITS + 8` bits is a transaction (R57);
a wider number is none and is refused by name. -/
def decodeWord (c : Cfg) (word : Nat) : Except DecodeReject Instr :=
  if word < 2 ^ (c.addrBits + 9) then
    if wordWrite c word then .ok (decodeWrite c (wordAddr c word) (wordData word))
    else .ok (decodeRead c (wordAddr c word))
  else .error .wordTooWide

/-- Decode of whatever is presented: a signal operation arrives on its own input and needs no decoding (R55). -/
def decodeEvent (c : Cfg) : Event → Except DecodeReject Instr
  | .bus word => decodeWord c word
  | .tick => .ok .tick
  | .coin old => .ok (.coin old)
  | .service old => .ok (.service old)
  | .assertLine line => .ok (.assertLine line)
  | .obs line => .ok (.obs line)
  | .render => .ok .render
  | .reset => .ok .reset
  | .load prog dbank => .ok (.load prog dbank)

/-- The word of a read of `addr`: its data field is written 0x00 (R51). -/
def readWord (c : Cfg) (addr : Nat) : Event := .bus (busWord c false addr 0)

/-- The word of a write of `data` to `addr` (R51). -/
def writeWord (c : Cfg) (addr : Nat) (data : Byte) : Event := .bus (busWord c true addr data)

/-- How an operation is presented: the encoding column of the opcode table, over the configuration's addresses. -/
def encode (c : Cfg) : Instr → Event
  | .rdLow addr => readWord c addr
  | .rdWram addr => readWord c addr
  | .rdProg addr => readWord c addr
  | .rdPrnrsv addr => readWord c addr
  | .rdUnmapped addr => readWord c addr
  | .rdBanksel => readWord c c.aBanksel
  | .rdDisprdy => readWord c c.aDisp
  | .rdPrnstat => readWord c c.aPrnstat
  | .rdSysin => readWord c c.aSysin
  | .rdKey1 => readWord c c.aKey1
  | .rdKey2 => readWord c c.aKey2
  | .rdDipsw => readWord c c.aDipsw
  | .rdToneOn => readWord c c.aToneOn
  | .rdToneOff => readWord c c.aToneOff
  | .wrLow addr data => writeWord c addr data
  | .wrWram addr data => writeWord c addr data
  | .wrProg addr data => writeWord c addr data
  | .wrPrnrsv addr data => writeWord c addr data
  | .wrUnmapped addr data => writeWord c addr data
  | .wrBanksel data => writeWord c c.aBanksel data
  | .wrDisp data => writeWord c c.aDisp data
  | .wrFirqack data => writeWord c c.aPrnstat data
  | .wrNmiack data => writeWord c c.aSysin data
  | .wrKey1 data => writeWord c c.aKey1 data
  | .wrKey2 data => writeWord c c.aKey2 data
  | .wrOutctl data => writeWord c c.aDipsw data
  | .wrToneOn data => writeWord c c.aToneOn data
  | .wrToneOff data => writeWord c c.aToneOff data
  | .tick => .tick
  | .coin old => .coin old
  | .service old => .service old
  | .assertLine line => .assertLine line
  | .obs line => .obs line
  | .render => .render
  | .reset => .reset
  | .load prog dbank => .load prog dbank

/-- The operation the decoder reads from the opcode table's word `w` under `REFMAP`, none where it refuses. The table's
word is the transaction word itself, bit 0 the least significant, so `w` needs no laying out (log entry 13). -/
def decodeTableWord (_nbits w : Nat) : Option Instr :=
  match decodeWord Cfg.refmap w with
  | .ok i => some i
  | .error _ => none

end Sys2Proof
end

