-- ==== Sys2Proof/Machine/State.lean ====
section
/-!
DEFINITION. The state of the block as plain data (spec/10_state.md section 1), the reasons a step can stop, and the
state after reset.
-/

namespace Sys2Proof.Machine

/-- A byte array in canonical form: the cells that do not hold `unlistedByte`, by strictly rising index. -/
abbrev Memory := List Host.Cell

/-- What an unlisted index holds: 0x00, the content of working memory after `RESET` (R14, R24; log entry 20). -/
def unlistedByte : Byte := 0x00

/-- Whether the image-load collaborator has loaded the images yet (R184, R185; log entry 5). -/
inductive Phase where
  /-- Before a successful `LOAD`: "there is no block". -/
  | unloaded
  /-- After it: every operation but `LOAD` is served. -/
  | live
  deriving DecidableEq, Repr

/-- What the last operation returned to whoever presented it (log entry 10). -/
inductive Reply where
  /-- The operation returns nothing. -/
  | nothing
  /-- A bus read returns one byte (R70). -/
  | byte (v : Byte)
  /-- `OBS` returns the level of a line, true = pending (R127). -/
  | level (pending : Bool)
  /-- `RENDER` returns the 20 cells, `DISP[0]` first (R113). -/
  | line (cells : Vector Byte 20)
  deriving DecidableEq, Repr

/-- The machine stops with a fault. There is NO constructor: R160 and spec/93_implementation_defined.md section 1 say
that no operation of the block faults, so nothing raises one. Safe. -/
inductive Fault where
  deriving DecidableEq, Repr

/-- Why an operation is refused. -/
inductive Refusal where
  /-- An operation with no meaning yet. Raised by no arm of `exec`: every operation has its meaning. Safe. -/
  | notModelled (mnemonic : String)
  /-- Raised by every operation when the configuration breaks R3 (93 U7: `refuse`). Safe. -/
  | configIllFormed
  /-- Raised by every operation but `LOAD` before a successful `LOAD`: there is no block (R184, R185). Safe. -/
  | noBlock
  /-- Raised by `LOAD` on a live block: it cannot be repeated (R184, D27). Safe. -/
  | loadRepeated
  /-- Raised by `LOAD` for an image of the wrong size: `LoadError(which)` (R184; 93 U6: `refuse`). Safe. -/
  | loadError (which : ImageName)
  /-- Raised by an operation whose address is not a bus address of its region; decode gives none (R53, R54; log entry
  14). Safe. -/
  | operandOutsideRegion
  /-- Raised by `step` for a word that is no transaction (R51; log entry 13). Safe. -/
  | undecodable (reason : DecodeReject)
  deriving DecidableEq, Repr

/-- The state: the fields of 10_state.md section 1, and four of the model's own (`phase`, `reply`, `draws`, `trace`;
log entries 5, 8, 10, 11). -/
structure State where
  /-- `CFG`, unchanged by every operation (R2, R24; log entry 1). -/
  cfg : Cfg
  /-- The model's own: whether the block exists yet (R184). -/
  phase : Phase
  /-- `PROG`, by index from 0 (R12). -/
  prog : Memory
  /-- `DBANK`, by index from 0 (R13). -/
  dbank : Memory
  /-- `WRAM`, by index from 0 (R14). -/
  wram : Memory
  /-- `BANK` (R15). -/
  bank : BitVec 2
  /-- `DISP[0..19]`, `DISP[0]` the oldest (R16). -/
  disp : Vector Byte 20
  /-- `DISP[20]`, the terminator slot (R16, R114). -/
  dispTerm : Byte
  /-- `FIRQ`, true = pending (R17). -/
  firq : Bool
  /-- `NMI`, true = pending (R17). -/
  nmi : Bool
  /-- `LOCKOUT`, true = lockout active (R18). -/
  lockout : Bool
  /-- `COINCNT`, unbounded (R18, D9). -/
  coinCnt : Nat
  /-- `CUT1` (R19). -/
  cut1 : Bool
  /-- `CUT2` (R19). -/
  cut2 : Bool
  /-- `TONE_EN` (R20). -/
  toneEn : Bool
  /-- The model's own: what the last operation returned (R62 "-> v"). -/
  reply : Reply
  /-- The model's own: how many free values have been drawn (log entries 8, 9). -/
  draws : Nat
  /-- The model's own: the operations still to be presented, next one first (R62). -/
  trace : List Event
  deriving DecidableEq, Repr

/-- The reset state of R24, under `REFMAP`, with blank images: the state after `LOAD` of two all-zero images of the
right sizes, which includes the `RESET` of R181 (log entries 1, 4). Nothing is presented yet. -/
def State.reset : State where
  cfg := Cfg.refmap
  phase := .live
  prog := []
  dbank := []
  wram := []
  bank := 0
  disp := Vector.replicate 20 Cfg.refmap.space
  dispTerm := Cfg.refmap.dispTerm
  firq := false
  nmi := false
  lockout := false
  coinCnt := 0
  cut1 := false
  cut2 := false
  toneEn := false
  reply := .nothing
  draws := 0
  trace := []

/-- Before `LOAD`: there is no block yet (R184). The other fields are placeholders: nothing but `LOAD` runs here,
and it writes every one of them that it leaves visible (R181). -/
def State.beforeLoad : State := { State.reset with phase := .unloaded }

end Sys2Proof.Machine
end

