-- ==== Sys2Proof/Machine/Ops.lean ====
section
/-!
DEFINITION. The operations over memory and registers that the meanings share: memory in canonical form, the outcome
type, the guards every meaning stands under, answering a read, drawing a free value, `RESET`, and the output lines.

TAKING AN EXCEPTION: the block takes none. R160: it raises no synchronous exception; R164, R165: trap entry and
return are in the CPU collaborator, out of scope. Its whole part is the latches of Machine/Flags.lean.
-/

namespace Sys2Proof.Machine

/-- The outcome of one operation. -/
abbrev Result := Host.Outcome State Fault Refusal

/-! ### Memory -/

/-- The byte at an index. -/
def Memory.read : Memory → Nat → Byte
  | [], _ => unlistedByte
  | (b, w) :: m, a => if a = b then w else Memory.read m a

/-- The cell of a byte, listed only where it differs from `unlistedByte`. -/
def Memory.cons (a : Nat) (v : Byte) (m : Memory) : Memory := if v = unlistedByte then m else (a, v) :: m

/-- Store a byte at an index, keeping the canonical form. -/
def Memory.write : Memory → Nat → Byte → Memory
  | [], a, v => Memory.cons a v []
  | (b, w) :: m, a, v =>
    if a < b then Memory.cons a v ((b, w) :: m)
    else if a = b then Memory.cons a v m
    else (b, w) :: Memory.write m a v

/-- A byte sequence as a memory whose first byte has index `base`. -/
def Memory.ofBytesAt (base : Nat) : List Byte → Memory
  | [] => []
  | v :: vs => Memory.cons base v (Memory.ofBytesAt (base + 1) vs)

/-- A byte sequence as a memory indexed from 0 (R12, R13). -/
def Memory.ofBytes (vs : List Byte) : Memory := Memory.ofBytesAt 0 vs

/-- The canonical form: indices strictly rising, no cell that an unlisted index would read as. -/
abbrev Memory.WF (m : Memory) : Prop :=
  m.Pairwise (fun x y => x.1 < y.1) ∧ ∀ x ∈ m, x.2 ≠ unlistedByte

/-- The canonical form as a `Bool`. -/
def Memory.wf (m : Memory) : Bool := decide (Memory.WF m)

/-- The memory is an array of `size` bytes: it lists no index at or above `size`. -/
abbrev Memory.Within (m : Memory) (size : Nat) : Prop := ∀ x ∈ m, x.1 < size

/-! ### Guards -/

/-- The block is defined: R185 (a) a well-formed configuration, (b) a successful `LOAD`. -/
structure State.Ready (s : State) : Prop where
  wf : s.cfg.wf = true
  live : s.phase = .live

/-- Every operation but `LOAD` runs only on a defined block (R3, R184, R185). -/
def whenLive (s : State) (k : Result) : Result :=
  if s.cfg.wf then
    match s.phase with
    | .live => k
    | .unloaded => .refused .noBlock
  else .refused .configIllFormed

/-- An operation that carries an address runs on a bus address of its own region (R72 to R93; log entry 14). -/
def atRegion (s : State) (addr : Nat) (r : Region) (k : Result) : Result :=
  if s.cfg.operandIn addr r then k else .refused .operandOutsideRegion

/-! ### Answers and free values -/

/-- The operation returns `r` and changes nothing else (R33). -/
def State.answer (s : State) (r : Reply) : State := { s with reply := r }

/-- An open-bus read of `addr` (R92): a free byte, no state of the block changes. -/
def State.openBusRead (s : State) (addr : Nat) : State :=
  { s with reply := .byte (Config.openBus s.draws addr), draws := s.draws + 1 }

/-- A read of an input vector (R22): a free byte supplied by the environment, no state of the block changes. -/
def State.inputRead (s : State) (port : InputPort) : State :=
  { s with reply := .byte (Config.input port s.draws), draws := s.draws + 1 }

/-! ### Display -/

/-- `DISP[0..19] <- DISP[1..19] ++ [ch]` (R110). -/
def shiftIn (cells : Vector Byte 20) (ch : Byte) : Vector Byte 20 :=
  ⟨⟨cells.toList.drop 1 ++ [ch]⟩, by simp⟩

/-! ### Reset -/

/-- `RESET` (R180): every mutable field of the block to its reset value (R24), the rest kept. -/
def State.resetBlock (s : State) : State :=
  { s with
    wram := []
    bank := 0
    disp := Vector.replicate 20 s.cfg.space
    toneEn := false
    lockout := false
    firq := false
    nmi := false
    cut1 := false
    cut2 := false
    coinCnt := 0
    reply := .nothing }

/-! ### Output lines -/

/-- The outputs the block drives (R26). -/
structure Outputs where
  fastInterrupt : Bool
  nonMaskableInterrupt : Bool
  toneEnable : Bool
  toneFrequency : Nat
  coinLockout : Bool
  cutter1 : Bool
  cutter2 : Bool
  coinCounter : Nat
  displayLine : Vector Byte 20
  deriving DecidableEq, Repr

/-- The outputs are driven continuously from the state: no operation computes them (R26). -/
def State.outputs (s : State) : Outputs where
  fastInterrupt := s.firq
  nonMaskableInterrupt := s.nmi
  toneEnable := s.toneEn
  toneFrequency := s.cfg.toneFreq
  coinLockout := s.lockout
  cutter1 := s.cut1
  cutter2 := s.cut2
  coinCounter := s.coinCnt
  displayLine := s.disp

end Sys2Proof.Machine
end

