-- ==== Sys2Proof/Machine/Operands.lean ====
section
/-!
DEFINITION. Operand assembly (spec/30_encoding.md R56, R58): the indices and fields each operation takes from its
address and its data byte.
-/

namespace Sys2Proof.Machine

/-- `offset` into the low window: `addr - LOW_BASE` (R56). -/
def lowOffset (c : Cfg) (addr : Nat) : Nat := addr - c.lowBase

/-- `index` into `DBANK`: `BANK * WINDOW + offset` (R56, R72). -/
def dbankIndex (c : Cfg) (bank : BitVec 2) (addr : Nat) : Nat := bank.toNat * Config.window + lowOffset c addr

/-- `index` into `WRAM`: `addr - WRAM_BASE` (R56). -/
def wramIndex (c : Cfg) (addr : Nat) : Nat := addr - c.wramBase

/-- `index` into `PROG`: `addr - PROG_BASE` (R56). -/
def progIndex (c : Cfg) (addr : Nat) : Nat := addr - c.progBase

/-- The new `BANK` of a bank-select write: `data[1:0]` (R56, R100). -/
def bankField (data : Byte) : BitVec 2 := data.extractLsb' 0 2

/-- The new `LOCKOUT` of an output-control write: `not data[0]` (R56, R147). -/
def lockoutField (data : Byte) : Bool := !data.getLsbD 0

/-- The new `CUT1` of an output-control write: `data[1]` (R56, R147). -/
def cut1Field (data : Byte) : Bool := data.getLsbD 1

/-- The new `CUT2` of an output-control write: `data[2]` (R56, R147). -/
def cut2Field (data : Byte) : Bool := data.getLsbD 2

end Sys2Proof.Machine
end

