-- ==== Sys2Proof/Machine/BankSelector.lean ====
section
/-!
DEFINITION. Meanings of the bank-select operations (spec/41_bank_selector.md).
-/

namespace Sys2Proof.Machine

/-- `WR_BANKSEL` (R100): `BANK <- data[1:0]`. -/
def execWrBanksel (data : Byte) (s : State) : Result :=
  whenLive s (.next (({ s with bank := bankField data } : State).answer .nothing))

/-- `RD_BANKSEL` (R101): an open-bus read; `BANK` is not readable. -/
def execRdBanksel (s : State) : Result :=
  whenLive s (.next (s.openBusRead s.cfg.aBanksel))

end Sys2Proof.Machine
end

