-- ==== Sys2Proof/Machine/Display.lean ====
section
/-!
DEFINITION. Meanings of the display operations (spec/42_display_buffer.md).
-/

namespace Sys2Proof.Machine

/-- `WR_DISP` (R110): shift the cells left by one and append the byte. -/
def execWrDisp (data : Byte) (s : State) : Result :=
  whenLive s (.next (({ s with disp := shiftIn s.disp data } : State).answer .nothing))

/-- `RD_DISPRDY` (R111): the constant 0x00. -/
def execRdDisprdy (s : State) : Result :=
  whenLive s (.next (s.answer (.byte 0x00)))

/-- `RENDER` (R113): the 20 cells. -/
def execRender (s : State) : Result :=
  whenLive s (.next (s.answer (.line s.disp)))

end Sys2Proof.Machine
end

