-- ==== Sys2Proof/Machine/Flags.lean ====
section
/-!
DEFINITION. The only flags of the block are the two interrupt latches (spec/10_state.md R17). Each is set by its
event sources and cleared by its acknowledge (spec/43_interrupt_lines.md R120); nothing counts or queues (R129).
-/

namespace Sys2Proof.Machine

/-- The latch of a line, true = pending (R127). -/
def State.latch (s : State) : Line → Bool
  | .firq => s.firq
  | .nmi => s.nmi

/-- Set the latch of a line to pending (R126). -/
def State.raiseLine (s : State) : Line → State
  | .firq => { s with firq := true }
  | .nmi => { s with nmi := true }

/-- Clear the latch of a line: an acknowledge (R122, R125). -/
def State.ackLine (s : State) : Line → State
  | .firq => { s with firq := false }
  | .nmi => { s with nmi := false }

end Sys2Proof.Machine
end

