-- ==== Sys2Proof/Machine/Interrupts.lean ====
section
/-!
DEFINITION. Meanings of the interrupt-line operations (spec/43_interrupt_lines.md).
-/

namespace Sys2Proof.Machine

/-- `TICK` (R121): `FIRQ <- 1`. -/
def execTick (s : State) : Result :=
  whenLive s (.next ((s.raiseLine .firq).answer .nothing))

/-- `WR_FIRQACK` (R122): `FIRQ <- 0`, whatever the data byte (R59). -/
def execWrFirqack (_data : Byte) (s : State) : Result :=
  whenLive s (.next ((s.ackLine .firq).answer .nothing))

/-- `COIN old` (R123): on a release edge `NMI <- 1` and `COINCNT <- COINCNT + 1`; a press edge has no effect. -/
def execCoin (old : Bool) (s : State) : Result :=
  whenLive s (.next (
    (if old then ({ s with coinCnt := s.coinCnt + 1 } : State).raiseLine .nmi else s).answer .nothing))

/-- `SERVICE old` (R124): on a release edge `NMI <- 1`; a press edge has no effect. -/
def execService (old : Bool) (s : State) : Result :=
  whenLive s (.next ((if old then s.raiseLine .nmi else s).answer .nothing))

/-- `WR_NMIACK` (R125): `NMI <- 0`, whatever the data byte (R59). -/
def execWrNmiack (_data : Byte) (s : State) : Result :=
  whenLive s (.next ((s.ackLine .nmi).answer .nothing))

/-- `ASSERT line` (R126): the named latch is set. -/
def execAssertLine (line : Line) (s : State) : Result :=
  whenLive s (.next ((s.raiseLine line).answer .nothing))

/-- `OBS line` (R127): the level of the line. -/
def execObs (line : Line) (s : State) : Result :=
  whenLive s (.next (s.answer (.level (s.latch line))))

end Sys2Proof.Machine
end

