-- ==== Sys2Proof/Machine/MemoryRegions.lean ====
section
/-!
DEFINITION. Meanings of the memory-region, reserved-printer and unmapped operations (spec/40_dispatcher.md).
-/

namespace Sys2Proof.Machine

/-- `RD_LOW` (R72): `DBANK[BANK * WINDOW + (addr - LOW_BASE)]`. -/
def execRdLow (addr : Nat) (s : State) : Result :=
  whenLive s (atRegion s addr .low (.next (s.answer (.byte (s.dbank.read (dbankIndex s.cfg s.bank addr))))))

/-- `RD_WRAM` (R74): `WRAM[addr - WRAM_BASE]`. -/
def execRdWram (addr : Nat) (s : State) : Result :=
  whenLive s (atRegion s addr .wram (.next (s.answer (.byte (s.wram.read (wramIndex s.cfg addr))))))

/-- `RD_PROG` (R76): `PROG[addr - PROG_BASE]`. -/
def execRdProg (addr : Nat) (s : State) : Result :=
  whenLive s (atRegion s addr .prog (.next (s.answer (.byte (s.prog.read (progIndex s.cfg addr))))))

/-- `RD_PRNRSV` (R90): an open-bus read. -/
def execRdPrnrsv (addr : Nat) (s : State) : Result :=
  whenLive s (atRegion s addr .prnrsv (.next (s.openBusRead addr)))

/-- `RD_UNMAPPED` (R92): an open-bus read. -/
def execRdUnmapped (addr : Nat) (s : State) : Result :=
  whenLive s (atRegion s addr .unmapped (.next (s.openBusRead addr)))

/-- `WR_LOW` (R73): ignored. -/
def execWrLow (addr : Nat) (_data : Byte) (s : State) : Result :=
  whenLive s (atRegion s addr .low (.next (s.answer .nothing)))

/-- `WR_WRAM` (R75): `WRAM[addr - WRAM_BASE] <- data`. -/
def execWrWram (addr : Nat) (data : Byte) (s : State) : Result :=
  whenLive s (atRegion s addr .wram
    (.next (({ s with wram := s.wram.write (wramIndex s.cfg addr) data } : State).answer .nothing)))

/-- `WR_PROG` (R77): ignored. -/
def execWrProg (addr : Nat) (_data : Byte) (s : State) : Result :=
  whenLive s (atRegion s addr .prog (.next (s.answer .nothing)))

/-- `WR_PRNRSV` (R91): no effect. -/
def execWrPrnrsv (addr : Nat) (_data : Byte) (s : State) : Result :=
  whenLive s (atRegion s addr .prnrsv (.next (s.answer .nothing)))

/-- `WR_UNMAPPED` (R93): no effect. -/
def execWrUnmapped (addr : Nat) (_data : Byte) (s : State) : Result :=
  whenLive s (atRegion s addr .unmapped (.next (s.answer .nothing)))

end Sys2Proof.Machine
end

