-- ==== Sys2Proof/Machine/Peripherals.lean ====
section
/-!
DEFINITION. Meanings of the peripheral-register operations (spec/44_peripheral_registers.md).
-/

namespace Sys2Proof.Machine

/-- `RD_PRNSTAT` (R140): the constant 0xFF. -/
def execRdPrnstat (s : State) : Result :=
  whenLive s (.next (s.answer (.byte 0xFF)))

/-- `RD_SYSIN` (R141): the system inputs, as the environment supplies them. -/
def execRdSysin (s : State) : Result :=
  whenLive s (.next (s.inputRead .sys))

/-- `RD_KEY1` (R142): the first key-matrix vector. -/
def execRdKey1 (s : State) : Result :=
  whenLive s (.next (s.inputRead .key1))

/-- `RD_KEY2` (R143): the second key-matrix vector. -/
def execRdKey2 (s : State) : Result :=
  whenLive s (.next (s.inputRead .key2))

/-- `WR_KEY1` (R144): ignored. -/
def execWrKey1 (_data : Byte) (s : State) : Result :=
  whenLive s (.next (s.answer .nothing))

/-- `WR_KEY2` (R145): ignored. -/
def execWrKey2 (_data : Byte) (s : State) : Result :=
  whenLive s (.next (s.answer .nothing))

/-- `RD_DIPSW` (R146): the DIP switches; output control is not read back. -/
def execRdDipsw (s : State) : Result :=
  whenLive s (.next (s.inputRead .dipsw))

/-- `WR_OUTCTL` (R147): `LOCKOUT <- not data[0]`, `CUT1 <- data[1]`, `CUT2 <- data[2]`. -/
def execWrOutctl (data : Byte) (s : State) : Result :=
  whenLive s (.next (({ s with
    lockout := lockoutField data
    cut1 := cut1Field data
    cut2 := cut2Field data } : State).answer .nothing))

/-- `WR_TONE_ON` (R148): `TONE_EN <- 1`, whatever the data byte (R59). -/
def execWrToneOn (_data : Byte) (s : State) : Result :=
  whenLive s (.next (({ s with toneEn := true } : State).answer .nothing))

/-- `WR_TONE_OFF` (R149): `TONE_EN <- 0`, whatever the data byte (R59). -/
def execWrToneOff (_data : Byte) (s : State) : Result :=
  whenLive s (.next (({ s with toneEn := false } : State).answer .nothing))

/-- `RD_TONE_ON` (R150): an open-bus read; `TONE_EN` is unchanged. -/
def execRdToneOn (s : State) : Result :=
  whenLive s (.next (s.openBusRead s.cfg.aToneOn))

/-- `RD_TONE_OFF` (R151): an open-bus read; `TONE_EN` is unchanged. -/
def execRdToneOff (s : State) : Result :=
  whenLive s (.next (s.openBusRead s.cfg.aToneOff))

end Sys2Proof.Machine
end

