-- ==== Sys2Proof/Machine/System.lean ====
section
/-!
DEFINITION. Meanings of `RESET` and `LOAD` (spec/70_reset_and_hazards.md).
-/

namespace Sys2Proof.Machine

/-- `RESET` (R180). -/
def execReset (s : State) : Result :=
  whenLive s (.next s.resetBlock)

/-- `LOAD prog, dbank` (R184): both sizes are checked, the images fixed, the terminator slot takes its constant
(R114), and the implicit `RESET` of R181 follows. It runs once, before any other operation. -/
def execLoad (prog dbank : List Byte) (s : State) : Result :=
  if s.cfg.wf then
    match s.phase with
    | .live => .refused .loadRepeated
    | .unloaded =>
      if prog.length = s.cfg.progSize then
        if dbank.length = Config.dbankSize then
          .next (({ s with
            phase := .live
            prog := Memory.ofBytes prog
            dbank := Memory.ofBytes dbank
            dispTerm := s.cfg.dispTerm } : State).resetBlock)
        else .refused (.loadError .databank)
      else .refused (.loadError .program)
  else .refused .configIllFormed

end Sys2Proof.Machine
end

