-- ==== Sys2Proof/Machine/Dispatch.lean ====
section
/-! DEFINITION. The dispatch of a decoded operation to its meaning: one arm per constructor, in the table's order. -/

namespace Sys2Proof.Machine

def exec (i : Instr) (s : State) : Host.Outcome State Fault Refusal :=
  match i with
  | .rdLow addr => Sys2Proof.Machine.execRdLow addr s
  | .rdWram addr => Sys2Proof.Machine.execRdWram addr s
  | .rdProg addr => Sys2Proof.Machine.execRdProg addr s
  | .rdPrnrsv addr => Sys2Proof.Machine.execRdPrnrsv addr s
  | .rdUnmapped addr => Sys2Proof.Machine.execRdUnmapped addr s
  | .rdBanksel => Sys2Proof.Machine.execRdBanksel s
  | .rdDisprdy => Sys2Proof.Machine.execRdDisprdy s
  | .rdPrnstat => Sys2Proof.Machine.execRdPrnstat s
  | .rdSysin => Sys2Proof.Machine.execRdSysin s
  | .rdKey1 => Sys2Proof.Machine.execRdKey1 s
  | .rdKey2 => Sys2Proof.Machine.execRdKey2 s
  | .rdDipsw => Sys2Proof.Machine.execRdDipsw s
  | .rdToneOn => Sys2Proof.Machine.execRdToneOn s
  | .rdToneOff => Sys2Proof.Machine.execRdToneOff s
  | .wrLow addr data => Sys2Proof.Machine.execWrLow addr data s
  | .wrWram addr data => Sys2Proof.Machine.execWrWram addr data s
  | .wrProg addr data => Sys2Proof.Machine.execWrProg addr data s
  | .wrPrnrsv addr data => Sys2Proof.Machine.execWrPrnrsv addr data s
  | .wrUnmapped addr data => Sys2Proof.Machine.execWrUnmapped addr data s
  | .wrBanksel data => Sys2Proof.Machine.execWrBanksel data s
  | .wrDisp data => Sys2Proof.Machine.execWrDisp data s
  | .wrFirqack data => Sys2Proof.Machine.execWrFirqack data s
  | .wrNmiack data => Sys2Proof.Machine.execWrNmiack data s
  | .wrKey1 data => Sys2Proof.Machine.execWrKey1 data s
  | .wrKey2 data => Sys2Proof.Machine.execWrKey2 data s
  | .wrOutctl data => Sys2Proof.Machine.execWrOutctl data s
  | .wrToneOn data => Sys2Proof.Machine.execWrToneOn data s
  | .wrToneOff data => Sys2Proof.Machine.execWrToneOff data s
  | .tick => Sys2Proof.Machine.execTick s
  | .coin old => Sys2Proof.Machine.execCoin old s
  | .service old => Sys2Proof.Machine.execService old s
  | .assertLine line => Sys2Proof.Machine.execAssertLine line s
  | .obs line => Sys2Proof.Machine.execObs line s
  | .render => Sys2Proof.Machine.execRender s
  | .reset => Sys2Proof.Machine.execReset s
  | .load prog dbank => Sys2Proof.Machine.execLoad prog dbank s

end Sys2Proof.Machine
end

