-- ==== Sys2Proof/Machine/Step.lean ====
section
/-!
DEFINITION. One step: the next presented operation is taken from the trace, decoded and run (R11, R40, R62). Every
operation is one atomic step.
-/

namespace Sys2Proof.Machine

/-- The next presented operation, completely. Where none is presented the block does nothing (R11; log entry 12). -/
def step (s : State) : Host.Outcome State Fault Refusal :=
  match s.trace with
  | [] => .next s
  | e :: rest =>
    match decodeEvent s.cfg e with
    | .ok i => exec i { s with trace := rest }
    | .error r => .refused (.undecodable r)

/-- The transaction word `w` presented as the next operation (log entry 11). -/
def State.withFetchWord (s : State) (_nbits w : Nat) : State := { s with trace := .bus w :: s.trace }

end Sys2Proof.Machine
end

