-- ==== Sys2Proof/Machine/Pseudo.lean ====
section
/-!
DEFINITION. The pseudo-operations of spec/30_encoding.md R63: the document's names for its interface calls, and two
conveniences of the spec, each with its expansion into presented operations.
-/

namespace Sys2Proof.Machine

/-- A pseudo-operation. -/
inductive Pseudo where
  /-- `read(a)`. -/
  | read (addr : Nat)
  /-- `write(a, b)`. -/
  | write (addr : Nat) (data : Byte)
  /-- `select(v)`. -/
  | select (data : Byte)
  /-- `append(ch)`. -/
  | append (ch : Byte)
  /-- `render()`. -/
  | render
  /-- `ack FIRQ` with any byte. -/
  | ackFirq (x : Byte)
  /-- `ack NMI` with any byte. -/
  | ackNmi (x : Byte)
  /-- `observe(line)`. -/
  | observe (line : Line)
  /-- `assert(line)`. -/
  | assertLine (line : Line)
  /-- A timer tick. -/
  | timerTick
  /-- "coin insert edge": the release edge (90_conflicts.md C3). -/
  | coinInsertEdge
  /-- `COININSERT`: a whole press and release of the coin switch. -/
  | coinInsert
  /-- `SERVICEPRESS`: a whole press and release of the service switch. -/
  | servicePress
  deriving DecidableEq, Repr

/-- The expansion of a pseudo-operation (R63). -/
def expandPseudo (c : Cfg) : Pseudo → List Event
  | .read addr => [readWord c addr]
  | .write addr data => [writeWord c addr data]
  | .select data => [writeWord c c.aBanksel data]
  | .append ch => [writeWord c c.aDisp ch]
  | .render => [.render]
  | .ackFirq x => [writeWord c c.aPrnstat x]
  | .ackNmi x => [writeWord c c.aSysin x]
  | .observe line => [.obs line]
  | .assertLine line => [.assertLine line]
  | .timerTick => [.tick]
  | .coinInsertEdge => [.coin true]
  | .coinInsert => [.coin false, .coin true]
  | .servicePress => [.service false, .service true]

end Sys2Proof.Machine
end

