-- ==== Sys2Proof/Safety.lean ====
section
/-!
DEFINITION. What claims about the block speak of: the invariant of spec/10_state.md R25, running a sequence of
operations, and the abstract one-variable machines that spec/43_interrupt_lines.md R120 and the frame rules R14,
R112, R129, R152 describe.
-/

namespace Sys2Proof.Machine

/-- R25, over plain data: the configuration is well formed, each byte array is in canonical form and within its size,
and on a live block the terminator slot holds `DISP_TERM`. (`BANK ≤ 3`, 20 cells and two-valued flags hold by type.) -/
structure State.Inv (s : State) : Prop where
  cfg_wf : s.cfg.wf = true
  prog_wf : Memory.WF s.prog
  dbank_wf : Memory.WF s.dbank
  wram_wf : Memory.WF s.wram
  prog_within : Memory.Within s.prog s.cfg.progSize
  dbank_within : Memory.Within s.dbank Config.dbankSize
  wram_within : Memory.Within s.wram s.cfg.wramSize
  term_const : s.phase = .live → s.dispTerm = s.cfg.dispTerm

/-- Run decoded operations in order, stopping at the first that does not answer a next state (R40 (c)). -/
def execAll : List Instr → State → Result
  | [], s => .next s
  | i :: is, s =>
    match exec i s with
    | .next t => execAll is t
    | .fault r => .fault r
    | .refused r => .refused r

/-- Take `n` steps, stopping at the first that does not answer a next state: the machine on the trace it holds. -/
def runSteps : Nat → State → Result
  | 0, s => .next s
  | n + 1, s =>
    match step s with
    | .next t => runSteps n t
    | .fault r => .fault r
    | .refused r => .refused r

/-- The operation is a bus read (R53). -/
def isBusRead : Instr → Bool
  | .rdLow _ | .rdWram _ | .rdProg _ | .rdPrnrsv _ | .rdUnmapped _ | .rdBanksel | .rdDisprdy | .rdPrnstat => true
  | .rdSysin | .rdKey1 | .rdKey2 | .rdDipsw | .rdToneOn | .rdToneOff => true
  | _ => false

/-- The operation is a bus write (R54). -/
def isBusWrite : Instr → Bool
  | .wrLow _ _ | .wrWram _ _ | .wrProg _ _ | .wrPrnrsv _ _ | .wrUnmapped _ _ | .wrBanksel _ | .wrDisp _ => true
  | .wrFirqack _ | .wrNmiack _ | .wrKey1 _ | .wrKey2 _ | .wrOutctl _ | .wrToneOn _ | .wrToneOff _ => true
  | _ => false

/-- The operation is `LOAD`. -/
def isLoad : Instr → Bool
  | .load _ _ => true
  | _ => false

/-- The presented operation is one a live block serves: a transaction word, or a signal other than `LOAD`. -/
def eventServable (c : Cfg) : Event → Bool
  | .bus word => decide (word < 2 ^ (c.addrBits + 9))
  | .load _ _ => false
  | _ => true

/-- `FIRQ` after an operation, from `FIRQ` before it: the table of R120. -/
def firqAfter (pending : Bool) : Instr → Bool
  | .tick => true
  | .assertLine .firq => true
  | .wrFirqack _ => false
  | .reset => false
  | _ => pending

/-- `NMI` after an operation, from `NMI` before it: the table of R120. -/
def nmiAfter (pending : Bool) : Instr → Bool
  | .coin true => true
  | .service true => true
  | .assertLine .nmi => true
  | .wrNmiack _ => false
  | .reset => false
  | _ => pending

/-- `COINCNT` after an operation, from `COINCNT` before it (R152). -/
def coinCntAfter (n : Nat) : Instr → Nat
  | .coin true => n + 1
  | .reset => 0
  | _ => n

/-- `TONE_EN` after an operation, from `TONE_EN` before it (R154). -/
def toneAfter (on : Bool) : Instr → Bool
  | .wrToneOn _ => true
  | .wrToneOff _ => false
  | .reset => false
  | _ => on

/-- The byte of `WRAM` at index `k` after an operation, from the byte before it (R14, R75). -/
def wramByteAfter (c : Cfg) (k : Nat) (v : Byte) : Instr → Byte
  | .wrWram addr data => if addr - c.wramBase = k then data else v
  | .reset => 0x00
  | _ => v

/-- The bytes written to the display by a sequence of operations, in order (R112). -/
def displayWrites : List Instr → List Byte
  | [] => []
  | .wrDisp data :: is => data :: displayWrites is
  | _ :: is => displayWrites is

end Sys2Proof.Machine
end

