-- ==== Sys2Proof/Certificates/Slice0/Obligations.lean ====
section
/-!
DEFINITION. The statements about the model, for the provers: each formalises numbered rules of spec/ (basis `stated`)
or rests on named sections of it (basis `derived`); OBLIGATIONS.json lists them. `s.Ready` is the one condition on the
state under which an operation other than `LOAD` runs: a well-formed configuration and a successful `LOAD` (R185).
`s.cfg` is arbitrary, so every statement holds for every well-formed address map (R2, R3).
-/

open Sys2Proof Sys2Proof.Machine

/-! ### Encoding and decode -/

/-- 30_encoding.md sections 1 to 3: every operation that exists, presented as the encoder writes it, decodes to
itself, with every operand at every value. -/
def Obligations.DecodeOfEncodeIsTheOperation : Prop :=
  ∀ (c : Cfg) (i : Instr), c.wf = true → i.wellFormed c = true → decodeEvent c (encode c i) = .ok i

/-- The other direction, on transaction words: a word that decodes is the encoder's word of what it decodes to, up to
the data field of a read, which decode ignores (30_encoding.md sections 1 and 2). -/
def Obligations.EncodeOfDecodeIsTheWord : Prop :=
  ∀ (c : Cfg) (w : Nat) (i : Instr), c.wf = true → decodeWord c w = .ok i →
    i.wellFormed c = true ∧
    (isBusRead i = true ∧ encode c i = .bus (w - w % 256) ∨ isBusWrite i = true ∧ encode c i = .bus w)

/-- 30_encoding.md section 4: there is no illegal transaction. Every word of `1 + ADDR_BITS + 8` bits decodes to an
operation that exists; a wider number is no transaction and is refused by name (log entry 13). -/
def Obligations.EveryTransactionWordDecodes : Prop :=
  ∀ (c : Cfg) (w : Nat),
    (w < 2 ^ (1 + c.addrBits + 8) → ∃ i, decodeWord c w = .ok i ∧ i.wellFormed c = true) ∧
    (2 ^ (1 + c.addrBits + 8) ≤ w → decodeWord c w = .error .wordTooWide)

/-- Words of the opcode table under `REFMAP` decode to the operations they stand for. -/
def Obligations.SampleWordsDecode : Prop :=
  decodeWord Cfg.refmap 0x0010000 = .ok (.rdLow 0x0100) ∧
  decodeWord Cfg.refmap 0x16FFF5A = .ok (.wrWram 0x6FFF 0x5A) ∧
  decodeWord Cfg.refmap 0x0FFFF00 = .ok (.rdProg 0xFFFF) ∧
  decodeWord Cfg.refmap 0x1900D01 = .ok (.wrPrnrsv 0x900D 0x01) ∧
  decodeWord Cfg.refmap 0x0800000 = .ok (.rdUnmapped 0x8000) ∧
  decodeWord Cfg.refmap 0x1900C02 = .ok (.wrBanksel 0x02) ∧
  decodeWord Cfg.refmap 0x1900241 = .ok (.wrDisp 0x41) ∧
  decodeWord Cfg.refmap 0x1900000 = .ok (.wrFirqack 0x00) ∧
  decodeWord Cfg.refmap 0x19005FA = .ok (.wrOutctl 0xFA) ∧
  decodeWord Cfg.refmap 0x0900000 = .ok .rdPrnstat

/-- 30_encoding.md section 1, the region function: in a well-formed configuration the region of an address is `r`
exactly where the condition written for `r` holds, whatever the other conditions are, so their order is immaterial;
`UNMAPPED` is the region of exactly the addresses at which no condition holds. -/
def Obligations.RegionIsTheConditionThatHolds : Prop :=
  ∀ (c : Cfg) (a : Nat), c.wf = true →
    (region c a = .low ↔ c.lowBase ≤ a ∧ a ≤ c.lowBase + 24576 - 1) ∧
    (region c a = .wram ↔ c.wramBase ≤ a ∧ a ≤ c.wramBase + c.wramSize - 1) ∧
    (region c a = .prnstat ↔ a = c.aPrnstat) ∧ (region c a = .sysin ↔ a = c.aSysin) ∧
    (region c a = .disp ↔ a = c.aDisp) ∧ (region c a = .key1 ↔ a = c.aKey1) ∧
    (region c a = .key2 ↔ a = c.aKey2) ∧ (region c a = .dipsw ↔ a = c.aDipsw) ∧
    (region c a = .toneOn ↔ a = c.aToneOn) ∧ (region c a = .toneOff ↔ a = c.aToneOff) ∧
    (region c a = .banksel ↔ a = c.aBanksel) ∧ (region c a = .prnrsv ↔ a ∈ c.prnReserved) ∧
    (region c a = .prog ↔ c.progBase ≤ a ∧ a ≤ c.progBase + c.progSize - 1) ∧
    (region c a = .unmapped ↔
      ¬ (c.lowBase ≤ a ∧ a ≤ c.lowBase + 24576 - 1) ∧ ¬ (c.wramBase ≤ a ∧ a ≤ c.wramBase + c.wramSize - 1) ∧
      ¬ (c.progBase ≤ a ∧ a ≤ c.progBase + c.progSize - 1) ∧
      a ∉ [c.aPrnstat, c.aSysin, c.aDisp, c.aKey1, c.aKey2, c.aDipsw, c.aToneOn, c.aToneOff, c.aBanksel] ∧
      a ∉ c.prnReserved)

/-- 30_encoding.md section 2, the read table: a read is the operation the table names for the region of its address,
whatever its data field holds. -/
def Obligations.ReadDecodeFollowsTheTable : Prop :=
  ∀ (c : Cfg) (a : Nat) (d : Byte), a < 2 ^ c.addrBits →
    (region c a = .low → decodeWord c (busWord c false a d) = .ok (.rdLow a)) ∧
    (region c a = .wram → decodeWord c (busWord c false a d) = .ok (.rdWram a)) ∧
    (region c a = .prog → decodeWord c (busWord c false a d) = .ok (.rdProg a)) ∧
    (region c a = .prnrsv → decodeWord c (busWord c false a d) = .ok (.rdPrnrsv a)) ∧
    (region c a = .unmapped → decodeWord c (busWord c false a d) = .ok (.rdUnmapped a)) ∧
    (region c a = .banksel → decodeWord c (busWord c false a d) = .ok .rdBanksel) ∧
    (region c a = .disp → decodeWord c (busWord c false a d) = .ok .rdDisprdy) ∧
    (region c a = .prnstat → decodeWord c (busWord c false a d) = .ok .rdPrnstat) ∧
    (region c a = .sysin → decodeWord c (busWord c false a d) = .ok .rdSysin) ∧
    (region c a = .key1 → decodeWord c (busWord c false a d) = .ok .rdKey1) ∧
    (region c a = .key2 → decodeWord c (busWord c false a d) = .ok .rdKey2) ∧
    (region c a = .dipsw → decodeWord c (busWord c false a d) = .ok .rdDipsw) ∧
    (region c a = .toneOn → decodeWord c (busWord c false a d) = .ok .rdToneOn) ∧
    (region c a = .toneOff → decodeWord c (busWord c false a d) = .ok .rdToneOff)

/-- 30_encoding.md section 2, the write table: a write is the operation the table names for the region of its
address, with the data byte written. -/
def Obligations.WriteDecodeFollowsTheTable : Prop :=
  ∀ (c : Cfg) (a : Nat) (d : Byte), a < 2 ^ c.addrBits →
    (region c a = .low → decodeWord c (busWord c true a d) = .ok (.wrLow a d)) ∧
    (region c a = .wram → decodeWord c (busWord c true a d) = .ok (.wrWram a d)) ∧
    (region c a = .prog → decodeWord c (busWord c true a d) = .ok (.wrProg a d)) ∧
    (region c a = .prnrsv → decodeWord c (busWord c true a d) = .ok (.wrPrnrsv a d)) ∧
    (region c a = .unmapped → decodeWord c (busWord c true a d) = .ok (.wrUnmapped a d)) ∧
    (region c a = .banksel → decodeWord c (busWord c true a d) = .ok (.wrBanksel d)) ∧
    (region c a = .disp → decodeWord c (busWord c true a d) = .ok (.wrDisp d)) ∧
    (region c a = .prnstat → decodeWord c (busWord c true a d) = .ok (.wrFirqack d)) ∧
    (region c a = .sysin → decodeWord c (busWord c true a d) = .ok (.wrNmiack d)) ∧
    (region c a = .key1 → decodeWord c (busWord c true a d) = .ok (.wrKey1 d)) ∧
    (region c a = .key2 → decodeWord c (busWord c true a d) = .ok (.wrKey2 d)) ∧
    (region c a = .dipsw → decodeWord c (busWord c true a d) = .ok (.wrOutctl d)) ∧
    (region c a = .toneOn → decodeWord c (busWord c true a d) = .ok (.wrToneOn d)) ∧
    (region c a = .toneOff → decodeWord c (busWord c true a d) = .ok (.wrToneOff d))

/-! ### The step -/

/-- A step takes the next presented operation, decodes it and runs it on the state with the rest of the trace still to
be presented; `withFetchWord` presents a transaction word next (30_encoding.md section 6; log entry 11). -/
def Obligations.StepRunsThePresentedOperation : Prop :=
  (∀ (s : State) (e : Event) (rest : List Event) (i : Instr),
    s.trace = e :: rest → decodeEvent s.cfg e = .ok i → step s = exec i { s with trace := rest }) ∧
  (∀ (s : State) (n w : Nat) (i : Instr), decodeWord s.cfg w = .ok i → step (s.withFetchWord n w) = exec i s)

/-- Model's choice (log entries 12 and 13; 10_state.md section 2): with nothing presented a step changes nothing, and a
number that is no transaction word is refused. -/
def Obligations.StepIdlesOrRefusesNonTransactions : Prop :=
  (∀ s : State, s.trace = [] → step s = .next s) ∧
  (∀ (s : State) (w : Nat) (rest : List Event), s.trace = .bus w :: rest → 2 ^ (s.cfg.addrBits + 9) ≤ w →
    step s = .refused (.undecodable .wordTooWide))

/-! ### Memory regions (40_dispatcher.md) -/

/-- R72: `RD_LOW` returns `DBANK[BANK * WINDOW + offset]`, at an index inside the first 98304 bytes of the image, and
changes nothing else. -/
def Obligations.RdLowReturnsTheBankedByte : Prop :=
  ∀ (s : State) (a : Nat) (d : Byte), s.Ready → a < 2 ^ s.cfg.addrBits → region s.cfg a = .low →
    decodeWord s.cfg (busWord s.cfg false a d) = .ok (.rdLow a) ∧
    a - s.cfg.lowBase < 24576 ∧ s.bank.toNat * 24576 + (a - s.cfg.lowBase) < 98304 ∧
    exec (.rdLow a) s =
      .next { s with reply := .byte (s.dbank.read (s.bank.toNat * 24576 + (a - s.cfg.lowBase))) }

/-- `RD_WRAM` returns `WRAM[addr - WRAM_BASE]` and changes nothing else (40_dispatcher.md section 3). -/
def Obligations.RdWramReturnsTheStoredByte : Prop :=
  ∀ (s : State) (a : Nat), s.Ready → a < 2 ^ s.cfg.addrBits → region s.cfg a = .wram →
    exec (.rdWram a) s = .next { s with reply := .byte (s.wram.read (a - s.cfg.wramBase)) }

/-- R76: `RD_PROG` returns `PROG[addr - PROG_BASE]` and changes nothing else; `BANK` has no influence on it. -/
def Obligations.RdProgReturnsTheProgramByte : Prop :=
  ∀ (s : State) (a : Nat) (d : Byte), s.Ready → a < 2 ^ s.cfg.addrBits → region s.cfg a = .prog →
    decodeWord s.cfg (busWord s.cfg false a d) = .ok (.rdProg a) ∧
    exec (.rdProg a) s = .next { s with reply := .byte (s.prog.read (a - s.cfg.progBase)) }

/-- `WR_WRAM` stores its byte: the next state differs in `WRAM` only, and there in the one byte at
`addr - WRAM_BASE`; every other byte of it reads as before (40_dispatcher.md section 3). The premise on `WRAM` is the
canonical form that `InvariantIsKept` keeps. -/
def Obligations.WrWramStoresExactlyOneByte : Prop :=
  ∀ (s : State) (a : Nat) (v : Byte), s.Ready → Memory.WF s.wram → a < 2 ^ s.cfg.addrBits → region s.cfg a = .wram →
    ∃ m, exec (.wrWram a v) s = .next { s with wram := m, reply := .nothing } ∧
      ∀ k, Memory.read m k = if k = a - s.cfg.wramBase then v else s.wram.read k

/-- R73, R77, R91, R93, R144, R145: the six ignored writes change no field of the block, whatever their data. -/
def Obligations.IgnoredWritesChangeNothing : Prop :=
  ∀ (s : State) (a : Nat) (v : Byte), s.Ready → a < 2 ^ s.cfg.addrBits →
    (region s.cfg a = .low → decodeWord s.cfg (busWord s.cfg true a v) = .ok (.wrLow a v) ∧
      exec (.wrLow a v) s = .next { s with reply := .nothing }) ∧
    (region s.cfg a = .prog → decodeWord s.cfg (busWord s.cfg true a v) = .ok (.wrProg a v) ∧
      exec (.wrProg a v) s = .next { s with reply := .nothing }) ∧
    (region s.cfg a = .prnrsv → decodeWord s.cfg (busWord s.cfg true a v) = .ok (.wrPrnrsv a v) ∧
      exec (.wrPrnrsv a v) s = .next { s with reply := .nothing }) ∧
    (region s.cfg a = .unmapped → decodeWord s.cfg (busWord s.cfg true a v) = .ok (.wrUnmapped a v) ∧
      exec (.wrUnmapped a v) s = .next { s with reply := .nothing }) ∧
    (a = s.cfg.aKey1 → decodeWord s.cfg (busWord s.cfg true a v) = .ok (.wrKey1 v) ∧
      exec (.wrKey1 v) s = .next { s with reply := .nothing }) ∧
    (a = s.cfg.aKey2 → decodeWord s.cfg (busWord s.cfg true a v) = .ok (.wrKey2 v) ∧
      exec (.wrKey2 v) s = .next { s with reply := .nothing })

/-- The five open-bus reads return some byte, a free value (log entry 8), and change no field of the block
(40_dispatcher.md sections 5 and 6, D6); `draws` is the model's own counter. -/
def Obligations.OpenBusReadsReturnSomeByte : Prop :=
  ∀ (s : State) (a : Nat), s.Ready → a < 2 ^ s.cfg.addrBits →
    (region s.cfg a = .prnrsv →
      ∃ v, exec (.rdPrnrsv a) s = .next { s with reply := .byte v, draws := s.draws + 1 }) ∧
    (region s.cfg a = .unmapped →
      ∃ v, exec (.rdUnmapped a) s = .next { s with reply := .byte v, draws := s.draws + 1 }) ∧
    (∃ v, exec .rdBanksel s = .next { s with reply := .byte v, draws := s.draws + 1 }) ∧
    (∃ v, exec .rdToneOn s = .next { s with reply := .byte v, draws := s.draws + 1 }) ∧
    (∃ v, exec .rdToneOff s = .next { s with reply := .byte v, draws := s.draws + 1 })

/-- Each of the four input reads returns the byte of its own input vector, `IN_SYS`, `IN_KEY1`, `IN_KEY2` or `IN_DIPSW`,
at the moment of the read: a free value the environment supplies, whose form as a function of the vector and of the
model's own `draws` is the model's choice (log entry 9). None changes a field of the block: they do not acknowledge and
do not count (44_peripheral_registers.md sections 2 and 3, D16). -/
def Obligations.InputReadsReturnSomeByte : Prop :=
  ∀ s : State, s.Ready →
    exec .rdSysin s = .next { s with reply := .byte (Config.input .sys s.draws), draws := s.draws + 1 } ∧
    exec .rdKey1 s = .next { s with reply := .byte (Config.input .key1 s.draws), draws := s.draws + 1 } ∧
    exec .rdKey2 s = .next { s with reply := .byte (Config.input .key2 s.draws), draws := s.draws + 1 } ∧
    exec .rdDipsw s = .next { s with reply := .byte (Config.input .dipsw s.draws), draws := s.draws + 1 }

/-- R111, R140: the display-ready address reads 0x00 and the printer-status address reads 0xFF in every state, and
neither read changes a field of the block (the fast interrupt is not acknowledged). -/
def Obligations.ConstantReadsReturnTheirConstant : Prop :=
  ∀ (s : State) (d : Byte), s.Ready →
    (decodeWord s.cfg (busWord s.cfg false s.cfg.aDisp d) = .ok .rdDisprdy ∧
      exec .rdDisprdy s = .next { s with reply := .byte 0x00 }) ∧
    (decodeWord s.cfg (busWord s.cfg false s.cfg.aPrnstat d) = .ok .rdPrnstat ∧
      exec .rdPrnstat s = .next { s with reply := .byte 0xFF })

/-! ### Bank selector (41_bank_selector.md) -/

/-- `WR_BANKSEL` sets `BANK` to the two low bits of its data and changes nothing else; bits 7 to 2 have no effect
(41_bank_selector.md, D7). -/
def Obligations.WrBankselKeepsTheTwoLowBits : Prop :=
  ∀ (s : State) (v : Byte), s.Ready →
    decodeWord s.cfg (busWord s.cfg true s.cfg.aBanksel v) = .ok (.wrBanksel v) ∧
    exec (.wrBanksel v) s = .next { s with bank := BitVec.ofNat 2 (v.toNat % 4), reply := .nothing }

/-- The law of the window (41_bank_selector.md): after a bank-select write of `v`, and after any operations but
another bank-select write and `RESET`, every low-window read returns `DBANK[(v & 3) * WINDOW + offset]`. -/
def Obligations.WindowShowsTheLastBankSelected : Prop :=
  ∀ (s t u : State) (v : Byte) (between : List Instr) (offset : Nat),
    exec (.wrBanksel v) s = .next t → execAll between t = .next u →
    (∀ w, .wrBanksel w ∉ between) → .reset ∉ between → offset < 24576 →
    exec (.rdLow (s.cfg.lowBase + offset)) u =
      .next { u with reply := .byte (s.dbank.read (v.toNat % 4 * 24576 + offset)) }

/-- Chunks 4 and 5 of the data-bank image are unreachable (41_bank_selector.md, D7): two live blocks whose images
differ only at indices 98304 and above answer every operation alike. It compares two runs under one environment: the
replies of open-bus and input reads are equal only because both draw at the same counter (log entries 8 and 9). -/
def Obligations.ChunksFourAndFiveAreUnreachable : Prop :=
  ∀ (s t : State) (m : Memory) (i : Instr), (∀ k, k < 98304 → Memory.read m k = s.dbank.read k) →
    exec i s = .next t → s.phase = .live → exec i { s with dbank := m } = .next { t with dbank := m }

/-! ### Display (42_display_buffer.md) -/

/-- R110: `WR_DISP` moves every cell one place to the left and puts its byte, whatever it is, in the last cell; the
oldest cell is lost and nothing else changes. -/
def Obligations.WrDispShiftsByOneCell : Prop :=
  ∀ (s : State) (v : Byte), s.Ready →
    decodeWord s.cfg (busWord s.cfg true s.cfg.aDisp v) = .ok (.wrDisp v) ∧
    ∃ cells : Vector Byte 20, exec (.wrDisp v) s = .next { s with disp := cells, reply := .nothing } ∧
      (∀ (i : Nat) (h : i < 19), cells[i] = s.disp[i + 1]) ∧ cells[19] = v

/-- The windowing law (42_display_buffer.md): after `n` display writes, with any operations but `RESET` between them,
the buffer holds the last 20 bytes written if `n ≥ 20`, and otherwise its last `20 - n` cells and then the bytes. -/
def Obligations.DisplayHoldsTheLastTwentyBytes : Prop :=
  ∀ (s t : State) (is : List Instr), execAll is s = .next t → s.phase = .live → .reset ∉ is →
    (20 ≤ (displayWrites is).length →
      t.disp.toList = (displayWrites is).drop ((displayWrites is).length - 20)) ∧
    ((displayWrites is).length < 20 →
      t.disp.toList = s.disp.toList.drop (displayWrites is).length ++ displayWrites is)

/-- `RENDER` returns the 20 cells, the oldest first, and changes nothing (42_display_buffer.md, D14). -/
def Obligations.RenderReturnsTheTwentyCells : Prop :=
  ∀ s : State, s.Ready →
    decodeEvent s.cfg .render = .ok .render ∧ exec .render s = .next { s with reply := .line s.disp }

/-! ### Interrupt lines (43_interrupt_lines.md) -/

/-- R121: `TICK`, presented by the timer only, sets `FIRQ` and changes nothing else. -/
def Obligations.TickSetsTheFastInterrupt : Prop :=
  ∀ s : State, s.Ready →
    Event.agent .tick = .timer ∧ decodeEvent s.cfg .tick = .ok .tick ∧
    exec .tick s = .next { s with firq := true, reply := .nothing }

/-- R122: a write of any byte to `A_PRNSTAT` clears `FIRQ` and changes nothing else. -/
def Obligations.WrFirqackClearsTheFastInterrupt : Prop :=
  ∀ (s : State) (v : Byte), s.Ready →
    decodeWord s.cfg (busWord s.cfg true s.cfg.aPrnstat v) = .ok (.wrFirqack v) ∧
    exec (.wrFirqack v) s = .next { s with firq := false, reply := .nothing }

/-- R125: a write of any byte to `A_SYSIN` clears `NMI` and changes nothing else. -/
def Obligations.WrNmiackClearsTheNonMaskableInterrupt : Prop :=
  ∀ (s : State) (v : Byte), s.Ready →
    decodeWord s.cfg (busWord s.cfg true s.cfg.aSysin v) = .ok (.wrNmiack v) ∧
    exec (.wrNmiack v) s = .next { s with nmi := false, reply := .nothing }

/-- `COIN`: the release edge sets `NMI` and adds one to `COINCNT`, whatever `LOCKOUT` is; the press edge has no effect
(43_interrupt_lines.md section 3, D8, D10). -/
def Obligations.CoinReleaseSetsNmiAndCounts : Prop :=
  ∀ s : State, s.Ready →
    exec (.coin true) s = .next { s with nmi := true, coinCnt := s.coinCnt + 1, reply := .nothing } ∧
    exec (.coin false) s = .next { s with reply := .nothing }

/-- `SERVICE`: the release edge sets `NMI` and never counts; the press edge has no effect (43_interrupt_lines.md
section 3, D8). -/
def Obligations.ServiceReleaseSetsNmi : Prop :=
  ∀ s : State, s.Ready →
    exec (.service true) s = .next { s with nmi := true, reply := .nothing } ∧
    exec (.service false) s = .next { s with reply := .nothing }

/-- A whole press and release of a switch, presented as the pseudo-operations `COININSERT` and `SERVICEPRESS` (30_encoding.md
section 6, D8): in two steps each sets `NMI`, and the coin counts exactly one. -/
def Obligations.SwitchPressesSetNmiOnRelease : Prop :=
  ∀ (s : State) (rest : List Event), s.Ready →
    (s.trace = expandPseudo s.cfg .coinInsert ++ rest →
      runSteps 2 s =
        .next { s with trace := rest, nmi := true, coinCnt := s.coinCnt + 1, reply := .nothing }) ∧
    (s.trace = expandPseudo s.cfg .servicePress ++ rest →
      runSteps 2 s = .next { s with trace := rest, nmi := true, reply := .nothing })

/-- `ASSERT line` sets the named latch and nothing else, and no bus transaction is an `ASSERT`
(43_interrupt_lines.md section 4, D18). -/
def Obligations.AssertSetsTheNamedLatch : Prop :=
  (∀ s : State, s.Ready →
    exec (.assertLine .firq) s = .next { s with firq := true, reply := .nothing } ∧
    exec (.assertLine .nmi) s = .next { s with nmi := true, reply := .nothing }) ∧
  (∀ (c : Cfg) (w : Nat) (l : Line), decodeWord c w ≠ .ok (.assertLine l))

/-- `OBS line` returns the level of the line and changes nothing (43_interrupt_lines.md section 4, D20). -/
def Obligations.ObsReturnsTheLevelOfTheLine : Prop :=
  ∀ s : State, s.Ready →
    exec (.obs .firq) s = .next { s with reply := .level s.firq } ∧
    exec (.obs .nmi) s = .next { s with reply := .level s.nmi }

/-- R120: along any sequence of operations the two latches are exactly the two machines of the transition table,
each a function of its own state and the operation alone. -/
def Obligations.LatchesFollowTheTransitionTable : Prop :=
  ∀ (s t : State) (is : List Instr), s.phase = .live → execAll is s = .next t →
    t.firq = is.foldl firqAfter s.firq ∧ t.nmi = is.foldl nmiAfter s.nmi

/-- R128: no operation but `TICK`, `ASSERT FIRQ`, the fast acknowledge and `RESET` changes `FIRQ`, and none but
`COIN`, `SERVICE`, `ASSERT NMI`, the other acknowledge and `RESET` changes `NMI`. -/
def Obligations.NothingElseChangesALatch : Prop :=
  ∀ (s t : State) (i : Instr), s.phase = .live → exec i s = .next t →
    (t.firq ≠ s.firq → i = .tick ∨ i = .assertLine .firq ∨ (∃ v, i = .wrFirqack v) ∨ i = .reset) ∧
    (t.nmi ≠ s.nmi → i = .coin true ∨ i = .service true ∨ i = .assertLine .nmi ∨ (∃ v, i = .wrNmiack v) ∨ i = .reset)

/-- R129: the latches do not queue or count. However many ticks come before one acknowledge, the state is that after
one tick, and one acknowledge clears the line; however many coin and service releases come before one acknowledge,
`NMI` is pending until it and clear after it, while `COINCNT` counts every coin. -/
def Obligations.LatchesDoNotCountEvents : Prop :=
  (∀ (s t : State) (n : Nat), exec .tick s = .next t → execAll (List.replicate (n + 1) .tick) s = .next t) ∧
  (∀ (s t : State) (n : Nat) (v : Byte), s.Ready → exec .tick s = .next t →
    execAll (List.replicate (n + 1) .tick ++ [.wrFirqack v]) s = .next { t with firq := false }) ∧
  (∀ (s t : State) (edges : List Instr) (v : Byte), s.Ready → edges ≠ [] →
    (∀ i ∈ edges, i = .coin true ∨ i = .service true) → execAll edges s = .next t →
    t.nmi = true ∧ t.coinCnt = s.coinCnt + edges.count (.coin true) ∧
    exec (.wrNmiack v) t = .next { t with nmi := false })

/-- The order of simultaneous events cannot be observed (60_exceptions.md section 3): `TICK`, `COIN` and `SERVICE` in
either order give the same state. -/
def Obligations.SimultaneousEventsCommute : Prop :=
  ∀ (s : State) (i j : Instr), s.Ready →
    (i = .tick ∨ (∃ b, i = .coin b) ∨ ∃ b, i = .service b) →
    (j = .tick ∨ (∃ b, j = .coin b) ∨ ∃ b, j = .service b) → execAll [i, j] s = execAll [j, i] s

/-- No step of the bus master sets an interrupt latch or counts a coin (43_interrupt_lines.md section 4, D18). -/
def Obligations.BusMasterNeverSetsALatch : Prop :=
  ∀ (s t : State) (e : Event) (rest : List Event), s.trace = e :: rest → e.agent = .busMaster → step s = .next t →
    (t.firq = true → s.firq = true) ∧ (t.nmi = true → s.nmi = true) ∧ t.coinCnt = s.coinCnt

/-! ### Peripheral registers (44_peripheral_registers.md) -/

/-- `WR_OUTCTL` writes all three fields at once: `LOCKOUT` from bit 0 inverted, `CUT1` from bit 1, `CUT2` from bit 2;
bits 7 to 3 are ignored and nothing else changes (44_peripheral_registers.md section 3, D15). -/
def Obligations.WrOutctlWritesTheThreeFields : Prop :=
  ∀ (s : State) (v : Byte), s.Ready →
    decodeWord s.cfg (busWord s.cfg true s.cfg.aDipsw v) = .ok (.wrOutctl v) ∧
    exec (.wrOutctl v) s = .next { s with
      lockout := decide (v.toNat % 2 = 0)
      cut1 := decide (v.toNat / 2 % 2 = 1)
      cut2 := decide (v.toNat / 4 % 2 = 1)
      reply := .nothing }

/-- `WR_TONE_ON` and `WR_TONE_OFF` set and clear `TONE_EN`, whatever their data, and change nothing else
(44_peripheral_registers.md section 4, D17). -/
def Obligations.ToneWritesSetTheEnable : Prop :=
  ∀ (s : State) (v : Byte), s.Ready →
    decodeWord s.cfg (busWord s.cfg true s.cfg.aToneOn v) = .ok (.wrToneOn v) ∧
    exec (.wrToneOn v) s = .next { s with toneEn := true, reply := .nothing } ∧
    decodeWord s.cfg (busWord s.cfg true s.cfg.aToneOff v) = .ok (.wrToneOff v) ∧
    exec (.wrToneOff v) s = .next { s with toneEn := false, reply := .nothing }

/-- `COINCNT` and `TONE_EN` along any sequence of operations: the counter is the number of release edges since the
last `RESET`, added to what it was if there was none; the enable is the last tone write's, `RESET` clearing it
(44_peripheral_registers.md section 5, D9). -/
def Obligations.CounterAndToneFollowTheirOperations : Prop :=
  ∀ (s t : State) (is : List Instr), s.phase = .live → execAll is s = .next t →
    t.coinCnt = is.foldl coinCntAfter s.coinCnt ∧ t.toneEn = is.foldl toneAfter s.toneEn ∧
    (.reset ∉ is → t.coinCnt = s.coinCnt + is.count (.coin true))

/-- Every mutable field of 10_state.md section 1, each with the operations listed there as changing it: `LOCKOUT`,
`CUT1` and `CUT2` are changed by `WR_OUTCTL` and `RESET` only, `TONE_EN` by the tone writes and `RESET` only, `COINCNT`
by the coin release and `RESET` only, `FIRQ` by `TICK`, `ASSERT FIRQ`, `WR_FIRQACK` and `RESET` only, `NMI` by the coin
and service releases, `ASSERT NMI`, `WR_NMIACK` and `RESET` only, `BANK` by `WR_BANKSEL` and `RESET` only, `DISP` by
`WR_DISP` and `RESET` only, `WRAM` by `WR_WRAM` and `RESET` only. -/
def Obligations.EachFieldHasItsOwnWriters : Prop :=
  ∀ (s t : State) (i : Instr), s.phase = .live → exec i s = .next t → i ≠ .reset →
    ((∀ v, i ≠ .wrOutctl v) → t.lockout = s.lockout ∧ t.cut1 = s.cut1 ∧ t.cut2 = s.cut2) ∧
    ((∀ v, i ≠ .wrToneOn v ∧ i ≠ .wrToneOff v) → t.toneEn = s.toneEn) ∧
    (i ≠ .coin true → t.coinCnt = s.coinCnt) ∧
    (i ≠ .tick → i ≠ .assertLine .firq → (∀ v, i ≠ .wrFirqack v) → t.firq = s.firq) ∧
    (i ≠ .coin true → i ≠ .service true → i ≠ .assertLine .nmi → (∀ v, i ≠ .wrNmiack v) → t.nmi = s.nmi) ∧
    ((∀ v, i ≠ .wrBanksel v) → t.bank = s.bank) ∧
    ((∀ v, i ≠ .wrDisp v) → t.disp = s.disp) ∧
    ((∀ a v, i ≠ .wrWram a v) → t.wram = s.wram)

/-- The output-only fields are read by no rule of the block (44_peripheral_registers.md section 5, D10): changing
`LOCKOUT`, `CUT1`, `CUT2`, `TONE_EN` and `COINCNT` changes no reply, no latch, no memory, no display and no bank. It
compares two runs under one environment: the replies of open-bus and input reads are equal only because both runs draw
at the same counter, which is the model's choice (log entries 8 and 9) and no law of the spec. -/
def Obligations.OutputFieldsInfluenceNothing : Prop :=
  ∀ (s t : State) (i : Instr) (lock c1 c2 tone : Bool) (n : Nat), s.phase = .live → exec i s = .next t →
    ∃ u, exec i { s with lockout := lock, cut1 := c1, cut2 := c2, toneEn := tone, coinCnt := n } = .next u ∧
      u.reply = t.reply ∧ u.firq = t.firq ∧ u.nmi = t.nmi ∧ u.bank = t.bank ∧ u.disp = t.disp ∧ u.wram = t.wram ∧
      u.prog = t.prog ∧ u.dbank = t.dbank

/-- The reads whose value is a function of the state see the images, `WRAM` and `BANK` alone (40_dispatcher.md section
7): neither latch, no display cell and no output flag can be read over the bus (10_state.md section 2). -/
def Obligations.BusReadsSeeOnlyMemoryAndBank : Prop :=
  ∀ (s s' t t' : State) (i : Instr), s.Ready → s'.Ready → s.cfg = s'.cfg → s.prog = s'.prog → s.dbank = s'.dbank →
    s.wram = s'.wram → s.bank = s'.bank →
    (∃ a, i = .rdLow a ∨ i = .rdWram a ∨ i = .rdProg a) ∨ i = .rdPrnstat ∨ i = .rdDisprdy →
    exec i s = .next t → exec i s' = .next t' → t.reply = t'.reply

/-! ### Whole-machine rules -/

/-- No bus read, `OBS` or `RENDER` changes any state of the block (20_memory.md section 2): the next state is the same
but for the model's own `reply` and `draws`. -/
def Obligations.ReadsChangeNoState : Prop :=
  ∀ (s t : State) (i : Instr), isBusRead i = true ∨ (∃ l, i = .obs l) ∨ i = .render → exec i s = .next t →
    t = { s with reply := t.reply, draws := t.draws }

/-- No bus write or signal operation returns a value or draws a free value (40_dispatcher.md section 1). -/
def Obligations.OnlyReadsReturnAValue : Prop :=
  ∀ (s t : State) (i : Instr), isBusRead i = false → (∀ l, i ≠ .obs l) → i ≠ .render → exec i s = .next t →
    t.reply = .nothing ∧ t.draws = s.draws

/-- Writing the same value twice in a row equals writing it once, for every bus write but the display's
(20_memory.md section 2). -/
def Obligations.WritesButTheDisplaysAreIdempotent : Prop :=
  ∀ (s t : State) (i : Instr), Memory.WF s.wram → isBusWrite i = true → (∀ v, i ≠ .wrDisp v) → exec i s = .next t →
    exec i t = .next t

/-- `WRAM` holds what was last stored: after a `RESET` and any further operations, the byte at every index is the data
of the last `WR_WRAM` to it since the last `RESET`, and 0x00 where there was none (10_state.md section 3). -/
def Obligations.WramHoldsTheLastByteStored : Prop :=
  (∀ (s t : State) (is : List Instr) (k : Nat), s.phase = .live → Memory.WF s.wram → execAll is s = .next t →
    t.wram.read k = is.foldl (wramByteAfter s.cfg k) (s.wram.read k)) ∧
  (∀ (s t : State) (k : Nat), exec .reset s = .next t → t.wram.read k = 0x00)

/-- The images, the terminator slot, the configuration and the phase of a live block are changed by no operation,
`RESET` included (10_state.md section 3, 42_display_buffer.md, 70_reset_and_hazards.md section 1). -/
def Obligations.ImagesAndConfigurationNeverChange : Prop :=
  ∀ (s t : State), s.phase = .live → step s = .next t →
    t.prog = s.prog ∧ t.dbank = s.dbank ∧ t.dispTerm = s.dispTerm ∧ t.cfg = s.cfg ∧ t.phase = .live

/-- Totality (40_dispatcher.md section 7, 60_exceptions.md section 1): on a live block every operation that exists,
`LOAD` apart, answers a next state that is live again; none faults, blocks or is refused. -/
def Obligations.EveryOperationOfALiveBlockCompletes : Prop :=
  ∀ (s : State) (i : Instr), s.Ready → i.wellFormed s.cfg = true → isLoad i = false →
    ∃ t, exec i s = .next t ∧ t.Ready ∧ t.cfg = s.cfg

/-- Every trace runs to its end: from any live state, whatever transactions and signals other than `LOAD` are
presented, one step each serves them all and leaves a live block (40_dispatcher.md section 7, 20_memory.md section
4). -/
def Obligations.EveryTraceRunsToItsEnd : Prop :=
  ∀ s : State, s.Ready → (∀ e ∈ s.trace, eventServable s.cfg e = true) →
    ∃ t, runSteps s.trace.length s = .next t ∧ t.trace = [] ∧ t.Ready ∧ t.cfg = s.cfg

/-- The invariant of 10_state.md section 6 is kept by every step from every state that meets it. -/
def Obligations.InvariantIsKept : Prop :=
  ∀ s t : State, s.Inv → step s = .next t → t.Inv

/-- The invariant holds after reset and before `LOAD` (10_state.md section 6; log entries 4 and 5). -/
def Obligations.InvariantHoldsAtReset : Prop :=
  State.reset.Inv ∧ State.beforeLoad.Inv

/-! ### Reset and load (70_reset_and_hazards.md) -/

/-- `RESET` gives every mutable field its reset value, whatever the state, and keeps the images, the terminator slot
and the configuration (70_reset_and_hazards.md section 1, D9, D11); every byte of `WRAM` reads 0x00 after it. -/
def Obligations.ResetGivesTheResetState : Prop :=
  ∀ s : State, s.Ready →
    decodeEvent s.cfg .reset = .ok .reset ∧
    ∃ t, exec .reset s = .next t ∧
      t = { s with wram := t.wram, bank := 0, disp := t.disp, toneEn := false, lockout := false, firq := false,
                   nmi := false, cut1 := false, cut2 := false, coinCnt := 0, reply := .nothing } ∧
      (∀ k, t.wram.read k = 0x00) ∧ t.disp.toList = List.replicate 20 s.cfg.space

/-- The model's reset state has the values of 10_state.md section 6 (`SPACE` is 0x20 under `REFMAP`, D14; D9 and D11
for the five fields the document does not list; blank images are the model's choice, log entry 4). -/
def Obligations.ResetStateHasTheResetValues : Prop :=
  State.reset.cfg = Cfg.refmap ∧ State.reset.bank = 0 ∧ (∀ k, State.reset.wram.read k = 0x00) ∧
  State.reset.disp.toList = List.replicate 20 0x20 ∧ State.reset.toneEn = false ∧ State.reset.lockout = false ∧
  State.reset.firq = false ∧ State.reset.nmi = false ∧ State.reset.cut1 = false ∧ State.reset.cut2 = false ∧
  State.reset.coinCnt = 0 ∧ State.reset.trace = [] ∧ State.reset.Ready

/-- R184, success: before any other operation, images of the right sizes are fixed byte for byte and the block is in
the reset state; the terminator slot holds its constant. -/
def Obligations.LoadFixesTheImagesAndResets : Prop :=
  ∀ (s : State) (prog dbank : List Byte), s.cfg.wf = true → s.phase = .unloaded →
    prog.length = s.cfg.progSize → dbank.length = 147456 →
    ∃ t, exec (.load prog dbank) s = .next t ∧
      (∀ k, t.prog.read k = prog.getD k 0x00) ∧ (∀ k, t.dbank.read k = dbank.getD k 0x00) ∧
      t = { s with phase := .live, prog := t.prog, dbank := t.dbank, dispTerm := s.cfg.dispTerm, wram := t.wram,
                   bank := 0, disp := t.disp, toneEn := false, lockout := false, firq := false, nmi := false,
                   cut1 := false, cut2 := false, coinCnt := 0, reply := .nothing } ∧
      (∀ k, t.wram.read k = 0x00) ∧ t.disp.toList = List.replicate 20 s.cfg.space ∧ t.Ready

/-- R184, failure: an image of the wrong size is `LoadError` of that image (the program's is checked first), and
there is no next state; `LOAD` on a live block is refused too. -/
def Obligations.LoadRefusesWrongSizesAndRepeats : Prop :=
  ∀ (s : State) (prog dbank : List Byte), s.cfg.wf = true →
    (s.phase = .unloaded → prog.length ≠ s.cfg.progSize →
      exec (.load prog dbank) s = .refused (.loadError .program)) ∧
    (s.phase = .unloaded → prog.length = s.cfg.progSize → dbank.length ≠ 147456 →
      exec (.load prog dbank) s = .refused (.loadError .databank)) ∧
    (s.phase = .live → exec (.load prog dbank) s = .refused .loadRepeated)

/-- Where an operation does not run (00_scope.md section 4, 70_reset_and_hazards.md sections 2 and 3; log entries 5,
14, 15): every operation is refused under an ill-formed configuration; every operation but `LOAD` before `LOAD`; and
an operation whose address is not one of its region's. -/
def Obligations.RefusalsOutsideALiveBlock : Prop :=
  (∀ (s : State) (i : Instr), s.cfg.wf = false → exec i s = .refused .configIllFormed) ∧
  (∀ (s : State) (i : Instr), s.cfg.wf = true → s.phase = .unloaded → isLoad i = false →
    exec i s = .refused .noBlock) ∧
  (∀ (s : State) (i : Instr), s.Ready → i.wellFormed s.cfg = false → exec i s = .refused .operandOutsideRegion)

/-- The outputs follow the state in the same operation (10_state.md section 7): the two request lines, the tone enable
and the coin counter move as their tables say, the lockout and the cutters with `WR_OUTCTL` and `RESET` only, the
display line with `WR_DISP` and `RESET` only, the tone frequency never; no bus read moves any of them. After every
operation each of the nine outputs is the field behind it, so after `WR_OUTCTL v` the lockout and the cutters show the
bits of `v`, and after `WR_DISP v` the display line is the old one shifted by one cell with `v` last. -/
def Obligations.OutputsChangeOnlyWithTheirWriters : Prop :=
  ∀ (s t : State) (i : Instr), s.phase = .live → exec i s = .next t →
    t.outputs.toneFrequency = s.outputs.toneFrequency ∧
    t.outputs.fastInterrupt = firqAfter s.outputs.fastInterrupt i ∧
    t.outputs.nonMaskableInterrupt = nmiAfter s.outputs.nonMaskableInterrupt i ∧
    t.outputs.toneEnable = toneAfter s.outputs.toneEnable i ∧
    t.outputs.coinCounter = coinCntAfter s.outputs.coinCounter i ∧
    ((∀ v, i ≠ .wrOutctl v) → i ≠ .reset →
      t.outputs.coinLockout = s.outputs.coinLockout ∧ t.outputs.cutter1 = s.outputs.cutter1 ∧
      t.outputs.cutter2 = s.outputs.cutter2) ∧
    ((∀ v, i ≠ .wrDisp v) → i ≠ .reset → t.outputs.displayLine = s.outputs.displayLine) ∧
    (isBusRead i = true → t.outputs = s.outputs) ∧
    (t.outputs.fastInterrupt = t.firq ∧ t.outputs.nonMaskableInterrupt = t.nmi ∧ t.outputs.toneEnable = t.toneEn ∧
      t.outputs.toneFrequency = t.cfg.toneFreq ∧ t.outputs.coinLockout = t.lockout ∧ t.outputs.cutter1 = t.cut1 ∧
      t.outputs.cutter2 = t.cut2 ∧ t.outputs.coinCounter = t.coinCnt ∧ t.outputs.displayLine = t.disp) ∧
    (∀ v, i = .wrOutctl v →
      t.outputs.coinLockout = decide (v.toNat % 2 = 0) ∧ t.outputs.cutter1 = decide (v.toNat / 2 % 2 = 1) ∧
      t.outputs.cutter2 = decide (v.toNat / 4 % 2 = 1)) ∧
    (∀ v, i = .wrDisp v → t.outputs.displayLine.toList = s.outputs.displayLine.toList.drop 1 ++ [v])
end

