-- ==== Sys2Proof/Laws/AddressMap.lean ====
section
/-!
SUPPORT. In a well-formed configuration the map's entries share no address, so the region of an address is that of
any entry that answers at it (spec/30_encoding.md R52).
-/

namespace Sys2Proof

theorem MapEntry.disjoint_iff (e f : MapEntry) :
    e.disjoint f = true ↔ e.base + e.size ≤ f.base ∨ f.base + f.size ≤ e.base := by
  simp [MapEntry.disjoint]

theorem pairwiseDisjoint_iff (m : List MapEntry) :
    pairwiseDisjoint m = true ↔ m.Pairwise (fun e f => e.base + e.size ≤ f.base ∨ f.base + f.size ≤ e.base) := by
  induction m with
  | nil => simp [pairwiseDisjoint]
  | cons e m ih => simp [pairwiseDisjoint, ih, MapEntry.disjoint_iff]

/-- The clauses of R3. -/
theorem Cfg.wf_iff {c : Cfg} : c.wf = true ↔
    (∀ e ∈ c.addressMap, e.base + e.size ≤ 2 ^ c.addrBits) ∧
    c.addressMap.Pairwise (fun e f => e.base + e.size ≤ f.base ∨ f.base + f.size ≤ e.base) ∧
    1 ≤ c.wramSize ∧ 1 ≤ c.progSize ∧ c.lowBase + Config.window - 1 < c.progBase := by
  simp only [Cfg.wf, Bool.and_eq_true, List.all_eq_true, Nat.ble_eq, pairwiseDisjoint_iff, Nat.blt_eq, and_assoc]

theorem operandIn_iff {c : Cfg} {a : Nat} {r : Region} :
    c.operandIn a r = true ↔ a < 2 ^ c.addrBits ∧ region c a = r := by
  simp only [Cfg.operandIn, Bool.and_eq_true, decide_eq_true_eq]

theorem MapEntry.covers_iff (e : MapEntry) (a : Nat) : e.covers a = true ↔ e.base ≤ a ∧ a < e.base + e.size := by
  simp [MapEntry.covers, inRange]

theorem find?_of_disjoint {m : List MapEntry} 
    (h : m.Pairwise (fun e f => e.base + e.size ≤ f.base ∨ f.base + f.size ≤ e.base)) {e : MapEntry} (he : e ∈ m)
    {a : Nat} (ha : e.covers a = true) : m.find? (fun e => e.covers a) = some e := by
  induction m with
  | nil => simp at he
  | cons f m ih =>
    obtain ⟨hf, hm⟩ := List.pairwise_cons.mp h
    rcases List.mem_cons.mp he with rfl | he
    · simp [ha]
    · have hd := hf e he
      have hfa : f.covers a = false := by
        rw [Bool.eq_false_iff]
        intro hc
        rw [MapEntry.covers_iff] at hc ha
        omega
      rw [List.find?_cons, hfa]
      exact ih hm he

/-- The region of an address is that of whichever entry answers at it. -/
theorem region_of_entry {c : Cfg} (hc : c.wf = true) {e : MapEntry} (he : e ∈ c.addressMap) {a : Nat}
    (ha : e.covers a = true) : region c a = e.region := by
  simp [region, find?_of_disjoint (Cfg.wf_iff.mp hc).2.1 he ha]

/-- An address of a region other than `UNMAPPED` is answered by an entry of that region. -/
theorem entry_of_region {c : Cfg} {a : Nat} {r : Region} (h : region c a = r) (hr : r ≠ .unmapped) :
    ∃ e ∈ c.addressMap, e.region = r ∧ e.covers a = true := by
  unfold region at h
  split at h
  · rename_i e he
    exact ⟨e, List.mem_of_find?_eq_some he, h, by simpa using List.find?_some he⟩
  · exact absurd h.symm hr

/-- An address that no entry answers at is `UNMAPPED`. -/
theorem region_unmapped_iff {c : Cfg} (a : Nat) :
    region c a = .unmapped ↔ ∀ e ∈ c.addressMap, e.covers a = false := by
  unfold region
  constructor
  · intro h
    split at h
    · rename_i e he
      have hm := List.mem_of_find?_eq_some he
      simp only [Cfg.addressMap, List.mem_append, List.mem_cons, List.mem_map, List.not_mem_nil, or_false] at hm
      rcases hm with (rfl | rfl | rfl | rfl | rfl | rfl | rfl | rfl | rfl | rfl | rfl | rfl) | ⟨_, _, rfl⟩ <;>
        simp at h
    · rename_i hn
      intro e he
      simpa using (List.find?_eq_none.mp hn) e he
  · intro h
    rw [List.find?_eq_none.mpr (fun e he => by simp [h e he])]

/-- The entry of a mapped address that answers there lies inside the address space (R3 (a)). -/
theorem entry_on_bus {c : Cfg} (hc : c.wf = true) {e : MapEntry} (he : e ∈ c.addressMap) {a : Nat}
    (ha : e.covers a = true) : a < 2 ^ c.addrBits := by
  have := (Cfg.wf_iff.mp hc).1 e he
  rw [MapEntry.covers_iff] at ha
  omega

/-- The single-address registers answer at their own address (R35). -/
theorem region_register {c : Cfg} (hc : c.wf = true) {r : Region} {a : Nat} (he : (⟨r, a, 1⟩ : MapEntry) ∈ c.addressMap) :
    c.operandIn a r = true := by
  have ha : (⟨r, a, 1⟩ : MapEntry).covers a = true := by simp [MapEntry.covers_iff]
  exact operandIn_iff.mpr ⟨entry_on_bus hc he ha, region_of_entry hc he ha⟩

theorem region_prnstat {c : Cfg} (hc : c.wf = true) : c.operandIn c.aPrnstat .prnstat = true :=
  region_register hc (by simp [Cfg.addressMap])
theorem region_sysin {c : Cfg} (hc : c.wf = true) : c.operandIn c.aSysin .sysin = true :=
  region_register hc (by simp [Cfg.addressMap])
theorem region_disp {c : Cfg} (hc : c.wf = true) : c.operandIn c.aDisp .disp = true :=
  region_register hc (by simp [Cfg.addressMap])
theorem region_key1 {c : Cfg} (hc : c.wf = true) : c.operandIn c.aKey1 .key1 = true :=
  region_register hc (by simp [Cfg.addressMap])
theorem region_key2 {c : Cfg} (hc : c.wf = true) : c.operandIn c.aKey2 .key2 = true :=
  region_register hc (by simp [Cfg.addressMap])
theorem region_dipsw {c : Cfg} (hc : c.wf = true) : c.operandIn c.aDipsw .dipsw = true :=
  region_register hc (by simp [Cfg.addressMap])
theorem region_toneOn {c : Cfg} (hc : c.wf = true) : c.operandIn c.aToneOn .toneOn = true :=
  region_register hc (by simp [Cfg.addressMap])
theorem region_toneOff {c : Cfg} (hc : c.wf = true) : c.operandIn c.aToneOff .toneOff = true :=
  region_register hc (by simp [Cfg.addressMap])
theorem region_banksel {c : Cfg} (hc : c.wf = true) : c.operandIn c.aBanksel .banksel = true :=
  region_register hc (by simp [Cfg.addressMap])

/-- An address of one of the three ranges, or of the reserved set, lies where R35 says. -/
theorem range_of_region {c : Cfg} {a : Nat} :
    (region c a = .low → c.lowBase ≤ a ∧ a < c.lowBase + Config.window) ∧
    (region c a = .wram → c.wramBase ≤ a ∧ a < c.wramBase + c.wramSize) ∧
    (region c a = .prog → c.progBase ≤ a ∧ a < c.progBase + c.progSize) ∧
    (region c a = .prnrsv → a ∈ c.prnReserved) := by
  refine ⟨fun h => ?_, fun h => ?_, fun h => ?_, fun h => ?_⟩ <;>
  · obtain ⟨e, he, hr, ha⟩ := entry_of_region h (by decide)
    simp only [Cfg.addressMap, List.mem_append, List.mem_cons, List.mem_map, List.not_mem_nil, or_false] at he
    rw [MapEntry.covers_iff] at ha
    rcases he with (rfl | rfl | rfl | rfl | rfl | rfl | rfl | rfl | rfl | rfl | rfl | rfl) | ⟨x, hx, rfl⟩ <;>
      first
      | exact ha
      | (simp only at ha; rw [show a = x by omega]; exact hx)
      | (exact absurd hr (by simp))

end Sys2Proof
end

