-- ==== Sys2Proof/Laws/Decode.lean ====
section
/-!
SUPPORT. The fields of a packed transaction word are the ones that were packed, and what the decoder does with such a
word (spec/30_encoding.md R51 to R54).
-/

namespace Sys2Proof

theorem busWord_lt {c : Cfg} {a : Nat} (h : a < 2 ^ c.addrBits) (w : Bool) (d : Byte) :
    busWord c w a d < 2 ^ (c.addrBits + 9) := by
  have hd := d.isLt
  have hp : 2 ^ (c.addrBits + 9) = 2 ^ c.addrBits * 512 := by rw [Nat.pow_add]
  rw [hp]
  cases w <;> simp [busWord] <;> omega

@[simp] theorem wordData_busWord (c : Cfg) (w : Bool) (a : Nat) (d : Byte) : wordData (busWord c w a d) = d := by
  apply BitVec.eq_of_toNat_eq
  have hd := d.isLt
  simp only [wordData, busWord, BitVec.toNat_ofNat]
  omega

theorem busWord_div {c : Cfg} (w : Bool) (a : Nat) (d : Byte) :
    busWord c w a d / 256 = w.toNat * 2 ^ c.addrBits + a := by
  have hd := d.isLt
  simp only [busWord]
  omega

theorem wordAddr_busWord {c : Cfg} {a : Nat} (h : a < 2 ^ c.addrBits) (w : Bool) (d : Byte) :
    wordAddr c (busWord c w a d) = a := by
  rw [wordAddr, busWord_div]
  cases w <;> simp [Nat.mod_eq_of_lt h]

theorem wordWrite_busWord {c : Cfg} {a : Nat} (h : a < 2 ^ c.addrBits) (w : Bool) (d : Byte) :
    wordWrite c (busWord c w a d) = w := by
  rw [wordWrite, busWord_div]
  have hp : 0 < 2 ^ c.addrBits := Nat.two_pow_pos _
  cases w
  · simp [Nat.div_eq_of_lt h]
  · simp [Nat.add_div_left a hp, Nat.div_eq_of_lt h]

/-- What the decoder gives for a packed read. -/
theorem decodeWord_read {c : Cfg} {a : Nat} (h : a < 2 ^ c.addrBits) (d : Byte) :
    decodeWord c (busWord c false a d) = .ok (decodeRead c a) := by
  simp [decodeWord, busWord_lt h, wordWrite_busWord h, wordAddr_busWord h]

/-- What the decoder gives for a packed write. -/
theorem decodeWord_write {c : Cfg} {a : Nat} (h : a < 2 ^ c.addrBits) (d : Byte) :
    decodeWord c (busWord c true a d) = .ok (decodeWrite c a d) := by
  simp [decodeWord, busWord_lt h, wordWrite_busWord h, wordAddr_busWord h]

/-- The read the encoder writes for a bus address of region `r`. -/
theorem decodeEvent_readWord {c : Cfg} {a : Nat} {r : Region} (h : c.operandIn a r = true) :
    decodeEvent c (readWord c a) = .ok (decodeRead c a) := decodeWord_read (operandIn_iff.mp h).1 0

/-- The write the encoder writes for a bus address of region `r`. -/
theorem decodeEvent_writeWord {c : Cfg} {a : Nat} {r : Region} (h : c.operandIn a r = true) (d : Byte) :
    decodeEvent c (writeWord c a d) = .ok (decodeWrite c a d) := decodeWord_write (operandIn_iff.mp h).1 d

/-- A word is the packing of its own fields (R51). -/
theorem busWord_fields {c : Cfg} {w : Nat} (h : w < 2 ^ (c.addrBits + 9)) :
    busWord c (wordWrite c w) (wordAddr c w) (wordData w) = w := by
  have hp : 0 < 2 ^ c.addrBits := Nat.two_pow_pos _
  rw [Nat.pow_add] at h
  have hdm := Nat.div_add_mod (w / 256) (2 ^ c.addrBits)
  have hlt : w / 256 / 2 ^ c.addrBits < 2 := by
    rw [Nat.div_lt_iff_lt_mul hp]
    omega
  have hd : (wordData w).toNat = w % 256 := by simp [wordData]
  have hm : (wordWrite c w).toNat = w / 256 / 2 ^ c.addrBits := by
    unfold wordWrite
    generalize w / 256 / 2 ^ c.addrBits = q at hlt
    rcases (by omega : q = 0 ∨ q = 1) with rfl | rfl <;> rfl
  rw [busWord, hm, hd, wordAddr, Nat.mul_comm (w / 256 / 2 ^ c.addrBits), hdm]
  omega

theorem wordAddr_lt (c : Cfg) (w : Nat) : wordAddr c w < 2 ^ c.addrBits := Nat.mod_lt _ (Nat.two_pow_pos _)

/-- Whatever a transaction word decodes to is an operation that exists under the configuration. -/
theorem decodeRead_wellFormed {c : Cfg} {a : Nat} (h : a < 2 ^ c.addrBits) : (decodeRead c a).wellFormed c = true := by
  unfold decodeRead
  split <;> simp_all [Instr.wellFormed, operandIn_iff]

theorem decodeWrite_wellFormed {c : Cfg} {a : Nat} (h : a < 2 ^ c.addrBits) (d : Byte) :
    (decodeWrite c a d).wellFormed c = true := by
  unfold decodeWrite
  split <;> simp_all [Instr.wellFormed, operandIn_iff]

end Sys2Proof
end

