-- ==== Sys2Proof/Laws/Memory.lean ====
section
/-!
SUPPORT. What the memory operations do: read after write, the canonical form and the size are kept, and a byte
sequence reads back byte by byte.
-/

namespace Sys2Proof.Machine

theorem Memory.read_below (m : Memory) (a : Nat) (h : ∀ x ∈ m, a < x.1) : m.read a = unlistedByte := by
  induction m with
  | nil => rfl
  | cons x m ih =>
    obtain ⟨b, w⟩ := x
    have hb : a < b := h (b, w) (by simp)
    have hne : a ≠ b := by omega
    simp only [Memory.read, hne, if_false]
    exact ih fun y hy => h y (by simp [hy])

theorem Memory.mem_cons_of {a : Nat} {v : Byte} {m : Memory} {x : Host.Cell} (h : x ∈ Memory.cons a v m) :
    (x = (a, v) ∧ v ≠ unlistedByte) ∨ x ∈ m := by
  unfold Memory.cons at h
  split at h
  · exact .inr h
  · rcases List.mem_cons.mp h with h | h
    · exact .inl ⟨h, ‹_›⟩
    · exact .inr h

theorem Memory.read_cons (m : Memory) (a k : Nat) (v : Byte) (h : ∀ x ∈ m, a < x.1) :
    (Memory.cons a v m).read k = if k = a then v else m.read k := by
  unfold Memory.cons
  split
  · rename_i hv
    split
    · subst_vars; exact Memory.read_below m _ h
    · rfl
  · rfl

theorem Memory.cons_wf {m : Memory} {a : Nat} {v : Byte} (hm : Memory.WF m) (h : ∀ x ∈ m, a < x.1) :
    Memory.WF (Memory.cons a v m) := by
  unfold Memory.cons
  split
  · exact hm
  · rename_i hv
    exact ⟨List.pairwise_cons.mpr ⟨h, hm.1⟩, by
      intro x hx
      rcases List.mem_cons.mp hx with rfl | hx
      · exact hv
      · exact hm.2 x hx⟩

theorem Memory.WF.tail {x : Host.Cell} {m : Memory} (h : Memory.WF (x :: m)) : Memory.WF m :=
  ⟨(List.pairwise_cons.mp h.1).2, fun y hy => h.2 y (by simp [hy])⟩

theorem Memory.WF.head_lt {x : Host.Cell} {m : Memory} (h : Memory.WF (x :: m)) : ∀ y ∈ m, x.1 < y.1 :=
  (List.pairwise_cons.mp h.1).1

/-- Every cell of the memory after a write is the written one or was there before. -/
theorem Memory.mem_write {m : Memory} {a : Nat} {v : Byte} {x : Host.Cell} (h : x ∈ Memory.write m a v) :
    (x = (a, v) ∧ v ≠ unlistedByte) ∨ x ∈ m := by
  induction m with
  | nil => exact Memory.mem_cons_of h
  | cons y m ih =>
    obtain ⟨b, w⟩ := y
    simp only [Memory.write] at h
    split at h
    · exact Memory.mem_cons_of h
    · split at h
      · exact (Memory.mem_cons_of h).imp id (List.mem_cons_of_mem _)
      · rcases List.mem_cons.mp h with h | h
        · exact .inr (by simp [h])
        · exact (ih h).imp id (List.mem_cons_of_mem _)

theorem Memory.read_write {m : Memory} (hm : Memory.WF m) (a k : Nat) (v : Byte) :
    (Memory.write m a v).read k = if k = a then v else m.read k := by
  induction m with
  | nil => exact Memory.read_cons [] a k v (by simp)
  | cons x m ih =>
    obtain ⟨b, w⟩ := x
    simp only [Memory.write]
    split
    · rename_i hab
      refine Memory.read_cons _ a k v fun y hy => ?_
      rcases List.mem_cons.mp hy with rfl | hy
      · exact hab
      · exact Nat.lt_trans hab (hm.head_lt y hy)
    · split
      · rename_i hab
        subst hab
        rw [Memory.read_cons m a k v fun y hy => hm.head_lt y hy]
        by_cases hk : k = a <;> simp [Memory.read, hk]
      · rename_i hne
        by_cases hk : k = b
        · have : ¬ k = a := by omega
          simp only [Memory.read, hk, if_true]
          split
          · omega
          · rfl
        · simp only [Memory.read, hk, if_false]
          exact ih hm.tail

theorem Memory.write_wf {m : Memory} (hm : Memory.WF m) (a : Nat) (v : Byte) : Memory.WF (Memory.write m a v) := by
  induction m with
  | nil => exact Memory.cons_wf ⟨List.Pairwise.nil, by simp⟩ (by simp)
  | cons x m ih =>
    obtain ⟨b, w⟩ := x
    simp only [Memory.write]
    split
    · rename_i hab
      refine Memory.cons_wf hm fun y hy => ?_
      rcases List.mem_cons.mp hy with rfl | hy
      · exact hab
      · exact Nat.lt_trans hab (hm.head_lt y hy)
    · split
      · rename_i hab
        exact Memory.cons_wf hm.tail fun y hy => hab ▸ hm.head_lt y hy
      · refine ⟨List.pairwise_cons.mpr ⟨fun y hy => ?_, (ih hm.tail).1⟩, fun y hy => ?_⟩
        · rcases Memory.mem_write hy with ⟨rfl, -⟩ | hy
          · simp only; omega
          · exact hm.head_lt y hy
        · rcases List.mem_cons.mp hy with rfl | hy
          · exact hm.2 (b, w) (by simp)
          · exact (ih hm.tail).2 y hy

theorem Memory.write_within {m : Memory} {a n : Nat} (v : Byte) (hm : Memory.Within m n) (ha : a < n) :
    Memory.Within (Memory.write m a v) n := by
  intro x hx
  rcases Memory.mem_write hx with ⟨rfl, -⟩ | hx
  · exact ha
  · exact hm x hx

theorem Memory.ofBytesAt_range (vs : List Byte) (base : Nat) :
    ∀ x ∈ Memory.ofBytesAt base vs, base ≤ x.1 ∧ x.1 < base + vs.length := by
  induction vs generalizing base with
  | nil => simp [Memory.ofBytesAt]
  | cons v vs ih =>
    intro x hx
    rcases Memory.mem_cons_of hx with ⟨rfl, -⟩ | hx
    · simp
    · have := ih (base + 1) x hx
      simp only [List.length_cons]; omega

theorem Memory.ofBytesAt_wf (vs : List Byte) (base : Nat) : Memory.WF (Memory.ofBytesAt base vs) := by
  induction vs generalizing base with
  | nil => exact ⟨List.Pairwise.nil, by simp [Memory.ofBytesAt]⟩
  | cons v vs ih =>
    exact Memory.cons_wf (ih (base + 1)) fun x hx => by
      have := Memory.ofBytesAt_range vs (base + 1) x hx
      omega

theorem Memory.ofBytesAt_read (vs : List Byte) (base k : Nat) :
    (Memory.ofBytesAt base vs).read (base + k) = vs.getD k unlistedByte := by
  induction vs generalizing base k with
  | nil => rfl
  | cons v vs ih =>
    have hlt : ∀ x ∈ Memory.ofBytesAt (base + 1) vs, base < x.1 := fun x hx => by
      have := Memory.ofBytesAt_range vs (base + 1) x hx
      omega
    rw [Memory.ofBytesAt, Memory.read_cons _ _ _ _ hlt]
    cases k with
    | zero => simp
    | succ k =>
      have := ih (base + 1) k
      rw [show base + 1 + k = base + (k + 1) by omega] at this
      simp [this]

theorem Memory.ofBytes_wf (vs : List Byte) : Memory.WF (Memory.ofBytes vs) := Memory.ofBytesAt_wf vs 0

theorem Memory.ofBytes_within (vs : List Byte) : Memory.Within (Memory.ofBytes vs) vs.length := fun x hx => by
  have := Memory.ofBytesAt_range vs 0 x hx
  omega

/-- The byte at index `k` of a loaded image is byte `k` of the sequence supplied (R12, R13). -/
theorem Memory.ofBytes_read (vs : List Byte) (k : Nat) : (Memory.ofBytes vs).read k = vs.getD k unlistedByte := by
  simpa [Memory.ofBytes] using Memory.ofBytesAt_read vs 0 k

/-- Equal memories are equal data: two canonical memories that read alike everywhere are the same list. -/
theorem Memory.eq_of_read {m n : Memory} (hm : Memory.WF m) (hn : Memory.WF n) (h : ∀ k, m.read k = n.read k) :
    m = n := by
  induction m generalizing n with
  | nil =>
    cases n with
    | nil => rfl
    | cons y n => exact absurd (by simpa [Memory.read] using (h y.1).symm) (hn.2 y (by simp))
  | cons x m ih =>
    cases n with
    | nil => exact absurd (by simpa [Memory.read] using h x.1) (hm.2 x (by simp))
    | cons y n =>
      obtain ⟨a, v⟩ := x
      obtain ⟨b, w⟩ := y
      have hv : v ≠ unlistedByte := hm.2 (a, v) (by simp)
      have hw : w ≠ unlistedByte := hn.2 (b, w) (by simp)
      have hab : a = b := by
        rcases Nat.lt_trichotomy a b with hlt | heq | hlt
        · have h1 := h a
          rw [Memory.read_below ((b, w) :: n) a fun y hy => ?_] at h1
          · exact absurd (by simpa [Memory.read] using h1) hv
          · rcases List.mem_cons.mp hy with rfl | hy
            · exact hlt
            · exact Nat.lt_trans hlt (hn.head_lt y hy)
        · exact heq
        · have h1 := h b
          rw [Memory.read_below ((a, v) :: m) b fun y hy => ?_] at h1
          · exact absurd (by simpa [Memory.read] using h1.symm) hw
          · rcases List.mem_cons.mp hy with rfl | hy
            · exact hlt
            · exact Nat.lt_trans hlt (hm.head_lt y hy)
      subst hab
      have hvw : v = w := by simpa [Memory.read] using h a
      subst hvw
      congr 1
      refine ih hm.tail hn.tail fun k => ?_
      by_cases hk : k = a
      · subst hk
        rw [Memory.read_below m k fun y hy => hm.head_lt y hy, Memory.read_below n k fun y hy => hn.head_lt y hy]
      · simpa [Memory.read, hk] using h k

theorem Memory.ofBytesAt_replicate (n base : Nat) :
    Memory.ofBytesAt base (List.replicate n unlistedByte) = [] := by
  induction n generalizing base with
  | zero => rfl
  | succ n ih => simp [List.replicate_succ, Memory.ofBytesAt, Memory.cons, ih]

end Sys2Proof.Machine
end

