-- ==== Sys2Proof/Laws/Ops.lean ====
section
/-!
SUPPORT. One lemma per shared operation: when a guard lets an operation run and what follows when it did, the operand
indices inside their arrays, the display shift cell by cell, and the fields of a control byte as numbers.
-/

namespace Sys2Proof.Machine

theorem whenLive_of_ready {s : State} (h : s.Ready) (k : Result) : whenLive s k = k := by
  simp [whenLive, h.wf, h.live]

theorem whenLive_eq_next {s t : State} {k : Result} : whenLive s k = .next t ↔ s.Ready ∧ k = .next t := by
  constructor
  · intro h
    unfold whenLive at h
    split at h
    · split at h
      · exact ⟨⟨‹_›, ‹_›⟩, h⟩
      · cases h
    · cases h
  · rintro ⟨hr, rfl⟩
    exact whenLive_of_ready hr _

theorem whenLive_of_illFormed {s : State} (h : s.cfg.wf = false) (k : Result) :
    whenLive s k = .refused .configIllFormed := by
  simp [whenLive, h]

theorem whenLive_of_unloaded {s : State} (hc : s.cfg.wf = true) (h : s.phase = .unloaded) (k : Result) :
    whenLive s k = .refused .noBlock := by
  simp [whenLive, hc, h]

theorem atRegion_of_operandIn {s : State} {a : Nat} {r : Region} (h : s.cfg.operandIn a r = true) (k : Result) :
    atRegion s a r k = k := if_pos h

theorem atRegion_eq_next {s t : State} {a : Nat} {r : Region} {k : Result} :
    atRegion s a r k = .next t ↔ s.cfg.operandIn a r = true ∧ k = .next t := by
  unfold atRegion
  split <;> simp_all

theorem atRegion_of_not {s : State} {a : Nat} {r : Region} (h : s.cfg.operandIn a r = false) (k : Result) :
    atRegion s a r k = .refused .operandOutsideRegion := by
  simp [atRegion, h]

/-- The index of a low-window read is always inside the first four windows of the image (R58, R72). -/
theorem dbankIndex_lt {c : Cfg} {a : Nat} (h : region c a = .low) (bank : BitVec 2) : dbankIndex c bank a < 98304 := by
  have h1 := range_of_region.1 h
  have h2 := bank.isLt
  simp only [dbankIndex, lowOffset, Config.window] at *
  omega

theorem wramIndex_lt {c : Cfg} {a : Nat} (h : region c a = .wram) : wramIndex c a < c.wramSize := by
  have := range_of_region.2.1 h
  unfold wramIndex
  omega

theorem progIndex_lt {c : Cfg} {a : Nat} (h : region c a = .prog) : progIndex c a < c.progSize := by
  have := range_of_region.2.2.1 h
  unfold progIndex
  omega

@[simp] theorem shiftIn_toList (cells : Vector Byte 20) (ch : Byte) :
    (shiftIn cells ch).toList = cells.toList.drop 1 ++ [ch] := rfl

/-- The new bank is the two low bits of the byte written (R100). -/
theorem bankField_toNat (v : Byte) : (bankField v).toNat = v.toNat % 4 := by
  simp [bankField, BitVec.extractLsb'_toNat]

/-- The new lockout is bit 0 of the byte written, inverted (R147). -/
theorem lockoutField_eq (v : Byte) : lockoutField v = decide (v.toNat % 2 = 0) := by
  revert v; decide

/-- The first cutter flag is bit 1 of the byte written (R147). -/
theorem cut1Field_eq (v : Byte) : cut1Field v = decide (v.toNat / 2 % 2 = 1) := by
  revert v; decide

/-- The second cutter flag is bit 2 of the byte written (R147). -/
theorem cut2Field_eq (v : Byte) : cut2Field v = decide (v.toNat / 4 % 2 = 1) := by
  revert v; decide

end Sys2Proof.Machine
end

