-- ==== Sys2Proof/Laws/State.lean ====
section
/-!
SUPPORT. One lemma per field of `State` and named update, so that no proof unfolds a record update.
-/

namespace Sys2Proof.Machine

variable (s : State)

@[simp] theorem State.answer_cfg (r : Reply) : (s.answer r).cfg = s.cfg := rfl
@[simp] theorem State.answer_phase (r : Reply) : (s.answer r).phase = s.phase := rfl
@[simp] theorem State.answer_prog (r : Reply) : (s.answer r).prog = s.prog := rfl
@[simp] theorem State.answer_dbank (r : Reply) : (s.answer r).dbank = s.dbank := rfl
@[simp] theorem State.answer_wram (r : Reply) : (s.answer r).wram = s.wram := rfl
@[simp] theorem State.answer_bank (r : Reply) : (s.answer r).bank = s.bank := rfl
@[simp] theorem State.answer_disp (r : Reply) : (s.answer r).disp = s.disp := rfl
@[simp] theorem State.answer_dispTerm (r : Reply) : (s.answer r).dispTerm = s.dispTerm := rfl
@[simp] theorem State.answer_firq (r : Reply) : (s.answer r).firq = s.firq := rfl
@[simp] theorem State.answer_nmi (r : Reply) : (s.answer r).nmi = s.nmi := rfl
@[simp] theorem State.answer_lockout (r : Reply) : (s.answer r).lockout = s.lockout := rfl
@[simp] theorem State.answer_coinCnt (r : Reply) : (s.answer r).coinCnt = s.coinCnt := rfl
@[simp] theorem State.answer_cut1 (r : Reply) : (s.answer r).cut1 = s.cut1 := rfl
@[simp] theorem State.answer_cut2 (r : Reply) : (s.answer r).cut2 = s.cut2 := rfl
@[simp] theorem State.answer_toneEn (r : Reply) : (s.answer r).toneEn = s.toneEn := rfl
@[simp] theorem State.answer_reply (r : Reply) : (s.answer r).reply = r := rfl
@[simp] theorem State.answer_draws (r : Reply) : (s.answer r).draws = s.draws := rfl
@[simp] theorem State.answer_trace (r : Reply) : (s.answer r).trace = s.trace := rfl

@[simp] theorem State.openBusRead_cfg (a : Nat) : (s.openBusRead a).cfg = s.cfg := rfl
@[simp] theorem State.openBusRead_phase (a : Nat) : (s.openBusRead a).phase = s.phase := rfl
@[simp] theorem State.openBusRead_prog (a : Nat) : (s.openBusRead a).prog = s.prog := rfl
@[simp] theorem State.openBusRead_dbank (a : Nat) : (s.openBusRead a).dbank = s.dbank := rfl
@[simp] theorem State.openBusRead_wram (a : Nat) : (s.openBusRead a).wram = s.wram := rfl
@[simp] theorem State.openBusRead_bank (a : Nat) : (s.openBusRead a).bank = s.bank := rfl
@[simp] theorem State.openBusRead_disp (a : Nat) : (s.openBusRead a).disp = s.disp := rfl
@[simp] theorem State.openBusRead_dispTerm (a : Nat) : (s.openBusRead a).dispTerm = s.dispTerm := rfl
@[simp] theorem State.openBusRead_firq (a : Nat) : (s.openBusRead a).firq = s.firq := rfl
@[simp] theorem State.openBusRead_nmi (a : Nat) : (s.openBusRead a).nmi = s.nmi := rfl
@[simp] theorem State.openBusRead_lockout (a : Nat) : (s.openBusRead a).lockout = s.lockout := rfl
@[simp] theorem State.openBusRead_coinCnt (a : Nat) : (s.openBusRead a).coinCnt = s.coinCnt := rfl
@[simp] theorem State.openBusRead_cut1 (a : Nat) : (s.openBusRead a).cut1 = s.cut1 := rfl
@[simp] theorem State.openBusRead_cut2 (a : Nat) : (s.openBusRead a).cut2 = s.cut2 := rfl
@[simp] theorem State.openBusRead_toneEn (a : Nat) : (s.openBusRead a).toneEn = s.toneEn := rfl
@[simp] theorem State.openBusRead_reply (a : Nat) : (s.openBusRead a).reply = .byte (Config.openBus s.draws a) := rfl
@[simp] theorem State.openBusRead_draws (a : Nat) : (s.openBusRead a).draws = s.draws + 1 := rfl
@[simp] theorem State.openBusRead_trace (a : Nat) : (s.openBusRead a).trace = s.trace := rfl

@[simp] theorem State.inputRead_cfg (p : InputPort) : (s.inputRead p).cfg = s.cfg := rfl
@[simp] theorem State.inputRead_phase (p : InputPort) : (s.inputRead p).phase = s.phase := rfl
@[simp] theorem State.inputRead_prog (p : InputPort) : (s.inputRead p).prog = s.prog := rfl
@[simp] theorem State.inputRead_dbank (p : InputPort) : (s.inputRead p).dbank = s.dbank := rfl
@[simp] theorem State.inputRead_wram (p : InputPort) : (s.inputRead p).wram = s.wram := rfl
@[simp] theorem State.inputRead_bank (p : InputPort) : (s.inputRead p).bank = s.bank := rfl
@[simp] theorem State.inputRead_disp (p : InputPort) : (s.inputRead p).disp = s.disp := rfl
@[simp] theorem State.inputRead_dispTerm (p : InputPort) : (s.inputRead p).dispTerm = s.dispTerm := rfl
@[simp] theorem State.inputRead_firq (p : InputPort) : (s.inputRead p).firq = s.firq := rfl
@[simp] theorem State.inputRead_nmi (p : InputPort) : (s.inputRead p).nmi = s.nmi := rfl
@[simp] theorem State.inputRead_lockout (p : InputPort) : (s.inputRead p).lockout = s.lockout := rfl
@[simp] theorem State.inputRead_coinCnt (p : InputPort) : (s.inputRead p).coinCnt = s.coinCnt := rfl
@[simp] theorem State.inputRead_cut1 (p : InputPort) : (s.inputRead p).cut1 = s.cut1 := rfl
@[simp] theorem State.inputRead_cut2 (p : InputPort) : (s.inputRead p).cut2 = s.cut2 := rfl
@[simp] theorem State.inputRead_toneEn (p : InputPort) : (s.inputRead p).toneEn = s.toneEn := rfl
@[simp] theorem State.inputRead_reply (p : InputPort) : (s.inputRead p).reply = .byte (Config.input p s.draws) := rfl
@[simp] theorem State.inputRead_draws (p : InputPort) : (s.inputRead p).draws = s.draws + 1 := rfl
@[simp] theorem State.inputRead_trace (p : InputPort) : (s.inputRead p).trace = s.trace := rfl

@[simp] theorem State.resetBlock_cfg : (s.resetBlock).cfg = s.cfg := rfl
@[simp] theorem State.resetBlock_phase : (s.resetBlock).phase = s.phase := rfl
@[simp] theorem State.resetBlock_prog : (s.resetBlock).prog = s.prog := rfl
@[simp] theorem State.resetBlock_dbank : (s.resetBlock).dbank = s.dbank := rfl
@[simp] theorem State.resetBlock_wram : (s.resetBlock).wram = [] := rfl
@[simp] theorem State.resetBlock_bank : (s.resetBlock).bank = 0 := rfl
@[simp] theorem State.resetBlock_disp : (s.resetBlock).disp = Vector.replicate 20 s.cfg.space := rfl
@[simp] theorem State.resetBlock_dispTerm : (s.resetBlock).dispTerm = s.dispTerm := rfl
@[simp] theorem State.resetBlock_firq : (s.resetBlock).firq = false := rfl
@[simp] theorem State.resetBlock_nmi : (s.resetBlock).nmi = false := rfl
@[simp] theorem State.resetBlock_lockout : (s.resetBlock).lockout = false := rfl
@[simp] theorem State.resetBlock_coinCnt : (s.resetBlock).coinCnt = 0 := rfl
@[simp] theorem State.resetBlock_cut1 : (s.resetBlock).cut1 = false := rfl
@[simp] theorem State.resetBlock_cut2 : (s.resetBlock).cut2 = false := rfl
@[simp] theorem State.resetBlock_toneEn : (s.resetBlock).toneEn = false := rfl
@[simp] theorem State.resetBlock_reply : (s.resetBlock).reply = .nothing := rfl
@[simp] theorem State.resetBlock_draws : (s.resetBlock).draws = s.draws := rfl
@[simp] theorem State.resetBlock_trace : (s.resetBlock).trace = s.trace := rfl

@[simp] theorem State.raiseLine_cfg (l : Line) : (s.raiseLine l).cfg = s.cfg := by cases l <;> rfl
@[simp] theorem State.raiseLine_phase (l : Line) : (s.raiseLine l).phase = s.phase := by cases l <;> rfl
@[simp] theorem State.raiseLine_prog (l : Line) : (s.raiseLine l).prog = s.prog := by cases l <;> rfl
@[simp] theorem State.raiseLine_dbank (l : Line) : (s.raiseLine l).dbank = s.dbank := by cases l <;> rfl
@[simp] theorem State.raiseLine_wram (l : Line) : (s.raiseLine l).wram = s.wram := by cases l <;> rfl
@[simp] theorem State.raiseLine_bank (l : Line) : (s.raiseLine l).bank = s.bank := by cases l <;> rfl
@[simp] theorem State.raiseLine_disp (l : Line) : (s.raiseLine l).disp = s.disp := by cases l <;> rfl
@[simp] theorem State.raiseLine_dispTerm (l : Line) : (s.raiseLine l).dispTerm = s.dispTerm := by cases l <;> rfl
@[simp] theorem State.raiseLine_lockout (l : Line) : (s.raiseLine l).lockout = s.lockout := by cases l <;> rfl
@[simp] theorem State.raiseLine_coinCnt (l : Line) : (s.raiseLine l).coinCnt = s.coinCnt := by cases l <;> rfl
@[simp] theorem State.raiseLine_cut1 (l : Line) : (s.raiseLine l).cut1 = s.cut1 := by cases l <;> rfl
@[simp] theorem State.raiseLine_cut2 (l : Line) : (s.raiseLine l).cut2 = s.cut2 := by cases l <;> rfl
@[simp] theorem State.raiseLine_toneEn (l : Line) : (s.raiseLine l).toneEn = s.toneEn := by cases l <;> rfl
@[simp] theorem State.raiseLine_reply (l : Line) : (s.raiseLine l).reply = s.reply := by cases l <;> rfl
@[simp] theorem State.raiseLine_draws (l : Line) : (s.raiseLine l).draws = s.draws := by cases l <;> rfl
@[simp] theorem State.raiseLine_trace (l : Line) : (s.raiseLine l).trace = s.trace := by cases l <;> rfl
@[simp] theorem State.raiseLine_firq_firq : (s.raiseLine .firq).firq = true := rfl
@[simp] theorem State.raiseLine_firq_nmi : (s.raiseLine .firq).nmi = s.nmi := rfl
@[simp] theorem State.raiseLine_nmi_firq : (s.raiseLine .nmi).firq = s.firq := rfl
@[simp] theorem State.raiseLine_nmi_nmi : (s.raiseLine .nmi).nmi = true := rfl

@[simp] theorem State.ackLine_cfg (l : Line) : (s.ackLine l).cfg = s.cfg := by cases l <;> rfl
@[simp] theorem State.ackLine_phase (l : Line) : (s.ackLine l).phase = s.phase := by cases l <;> rfl
@[simp] theorem State.ackLine_prog (l : Line) : (s.ackLine l).prog = s.prog := by cases l <;> rfl
@[simp] theorem State.ackLine_dbank (l : Line) : (s.ackLine l).dbank = s.dbank := by cases l <;> rfl
@[simp] theorem State.ackLine_wram (l : Line) : (s.ackLine l).wram = s.wram := by cases l <;> rfl
@[simp] theorem State.ackLine_bank (l : Line) : (s.ackLine l).bank = s.bank := by cases l <;> rfl
@[simp] theorem State.ackLine_disp (l : Line) : (s.ackLine l).disp = s.disp := by cases l <;> rfl
@[simp] theorem State.ackLine_dispTerm (l : Line) : (s.ackLine l).dispTerm = s.dispTerm := by cases l <;> rfl
@[simp] theorem State.ackLine_lockout (l : Line) : (s.ackLine l).lockout = s.lockout := by cases l <;> rfl
@[simp] theorem State.ackLine_coinCnt (l : Line) : (s.ackLine l).coinCnt = s.coinCnt := by cases l <;> rfl
@[simp] theorem State.ackLine_cut1 (l : Line) : (s.ackLine l).cut1 = s.cut1 := by cases l <;> rfl
@[simp] theorem State.ackLine_cut2 (l : Line) : (s.ackLine l).cut2 = s.cut2 := by cases l <;> rfl
@[simp] theorem State.ackLine_toneEn (l : Line) : (s.ackLine l).toneEn = s.toneEn := by cases l <;> rfl
@[simp] theorem State.ackLine_reply (l : Line) : (s.ackLine l).reply = s.reply := by cases l <;> rfl
@[simp] theorem State.ackLine_draws (l : Line) : (s.ackLine l).draws = s.draws := by cases l <;> rfl
@[simp] theorem State.ackLine_trace (l : Line) : (s.ackLine l).trace = s.trace := by cases l <;> rfl
@[simp] theorem State.ackLine_firq_firq : (s.ackLine .firq).firq = false := rfl
@[simp] theorem State.ackLine_firq_nmi : (s.ackLine .firq).nmi = s.nmi := rfl
@[simp] theorem State.ackLine_nmi_firq : (s.ackLine .nmi).firq = s.firq := rfl
@[simp] theorem State.ackLine_nmi_nmi : (s.ackLine .nmi).nmi = false := rfl

@[simp] theorem State.latch_firq : s.latch .firq = s.firq := rfl
@[simp] theorem State.latch_nmi : s.latch .nmi = s.nmi := rfl

@[simp] theorem State.withFetchWord_cfg (n w : Nat) : (s.withFetchWord n w).cfg = s.cfg := rfl
@[simp] theorem State.withFetchWord_phase (n w : Nat) : (s.withFetchWord n w).phase = s.phase := rfl
@[simp] theorem State.withFetchWord_prog (n w : Nat) : (s.withFetchWord n w).prog = s.prog := rfl
@[simp] theorem State.withFetchWord_dbank (n w : Nat) : (s.withFetchWord n w).dbank = s.dbank := rfl
@[simp] theorem State.withFetchWord_wram (n w : Nat) : (s.withFetchWord n w).wram = s.wram := rfl
@[simp] theorem State.withFetchWord_bank (n w : Nat) : (s.withFetchWord n w).bank = s.bank := rfl
@[simp] theorem State.withFetchWord_disp (n w : Nat) : (s.withFetchWord n w).disp = s.disp := rfl
@[simp] theorem State.withFetchWord_dispTerm (n w : Nat) : (s.withFetchWord n w).dispTerm = s.dispTerm := rfl
@[simp] theorem State.withFetchWord_firq (n w : Nat) : (s.withFetchWord n w).firq = s.firq := rfl
@[simp] theorem State.withFetchWord_nmi (n w : Nat) : (s.withFetchWord n w).nmi = s.nmi := rfl
@[simp] theorem State.withFetchWord_lockout (n w : Nat) : (s.withFetchWord n w).lockout = s.lockout := rfl
@[simp] theorem State.withFetchWord_coinCnt (n w : Nat) : (s.withFetchWord n w).coinCnt = s.coinCnt := rfl
@[simp] theorem State.withFetchWord_cut1 (n w : Nat) : (s.withFetchWord n w).cut1 = s.cut1 := rfl
@[simp] theorem State.withFetchWord_cut2 (n w : Nat) : (s.withFetchWord n w).cut2 = s.cut2 := rfl
@[simp] theorem State.withFetchWord_toneEn (n w : Nat) : (s.withFetchWord n w).toneEn = s.toneEn := rfl
@[simp] theorem State.withFetchWord_reply (n w : Nat) : (s.withFetchWord n w).reply = s.reply := rfl
@[simp] theorem State.withFetchWord_draws (n w : Nat) : (s.withFetchWord n w).draws = s.draws := rfl
@[simp] theorem State.withFetchWord_trace (n w : Nat) : (s.withFetchWord n w).trace = .bus w :: s.trace := rfl

end Sys2Proof.Machine
end

