-- ==== Sys2Proof/Laws/Exec.lean ====
section
/-!
SUPPORT. What an operation can do, said once: on a live block it answers a next state exactly if it is one that exists
under the configuration, and that state is its `effect`. Every claim about a next state follows by cases on the
operation.
-/

namespace Sys2Proof.Machine

/-- The next state an operation answers on a live block (`LOAD` answers none there). -/
def effect : Instr → State → State
  | .rdLow addr, s => s.answer (.byte (s.dbank.read (dbankIndex s.cfg s.bank addr)))
  | .rdWram addr, s => s.answer (.byte (s.wram.read (wramIndex s.cfg addr)))
  | .rdProg addr, s => s.answer (.byte (s.prog.read (progIndex s.cfg addr)))
  | .rdPrnrsv addr, s => s.openBusRead addr
  | .rdUnmapped addr, s => s.openBusRead addr
  | .rdBanksel, s => s.openBusRead s.cfg.aBanksel
  | .rdDisprdy, s => s.answer (.byte 0x00)
  | .rdPrnstat, s => s.answer (.byte 0xFF)
  | .rdSysin, s => s.inputRead .sys
  | .rdKey1, s => s.inputRead .key1
  | .rdKey2, s => s.inputRead .key2
  | .rdDipsw, s => s.inputRead .dipsw
  | .rdToneOn, s => s.openBusRead s.cfg.aToneOn
  | .rdToneOff, s => s.openBusRead s.cfg.aToneOff
  | .wrLow _ _, s => s.answer .nothing
  | .wrWram addr data, s => ({ s with wram := s.wram.write (wramIndex s.cfg addr) data } : State).answer .nothing
  | .wrProg _ _, s => s.answer .nothing
  | .wrPrnrsv _ _, s => s.answer .nothing
  | .wrUnmapped _ _, s => s.answer .nothing
  | .wrBanksel data, s => ({ s with bank := bankField data } : State).answer .nothing
  | .wrDisp data, s => ({ s with disp := shiftIn s.disp data } : State).answer .nothing
  | .wrFirqack _, s => (s.ackLine .firq).answer .nothing
  | .wrNmiack _, s => (s.ackLine .nmi).answer .nothing
  | .wrKey1 _, s => s.answer .nothing
  | .wrKey2 _, s => s.answer .nothing
  | .wrOutctl data, s =>
    ({ s with lockout := lockoutField data, cut1 := cut1Field data, cut2 := cut2Field data } : State).answer .nothing
  | .wrToneOn _, s => ({ s with toneEn := true } : State).answer .nothing
  | .wrToneOff _, s => ({ s with toneEn := false } : State).answer .nothing
  | .tick, s => (s.raiseLine .firq).answer .nothing
  | .coin old, s => (if old then ({ s with coinCnt := s.coinCnt + 1 } : State).raiseLine .nmi else s).answer .nothing
  | .service old, s => (if old then s.raiseLine .nmi else s).answer .nothing
  | .assertLine line, s => (s.raiseLine line).answer .nothing
  | .obs line, s => s.answer (.level (s.latch line))
  | .render, s => s.answer (.line s.disp)
  | .reset, s => s.resetBlock
  | .load _ _, s => s

/-- On a live block an operation that exists, `LOAD` apart, answers its effect. -/
theorem exec_of_ready {s : State} {i : Instr} (h : s.Ready) (hi : i.wellFormed s.cfg = true)
    (hl : isLoad i = false) : exec i s = .next (effect i s) := by
  cases i with
  | rdLow a => exact (whenLive_of_ready h _).trans (atRegion_of_operandIn hi _)
  | rdWram a => exact (whenLive_of_ready h _).trans (atRegion_of_operandIn hi _)
  | rdProg a => exact (whenLive_of_ready h _).trans (atRegion_of_operandIn hi _)
  | rdPrnrsv a => exact (whenLive_of_ready h _).trans (atRegion_of_operandIn hi _)
  | rdUnmapped a => exact (whenLive_of_ready h _).trans (atRegion_of_operandIn hi _)
  | wrLow a v => exact (whenLive_of_ready h _).trans (atRegion_of_operandIn hi _)
  | wrWram a v => exact (whenLive_of_ready h _).trans (atRegion_of_operandIn hi _)
  | wrProg a v => exact (whenLive_of_ready h _).trans (atRegion_of_operandIn hi _)
  | wrPrnrsv a v => exact (whenLive_of_ready h _).trans (atRegion_of_operandIn hi _)
  | wrUnmapped a v => exact (whenLive_of_ready h _).trans (atRegion_of_operandIn hi _)
  | load p d => cases hl
  | _ => exact whenLive_of_ready h _

/-- On a live block an operation that answers a next state is one that exists, is not `LOAD`, and answers its
effect. -/
theorem exec_next_live {s t : State} {i : Instr} (hp : s.phase = .live) (h : exec i s = .next t) :
    s.Ready ∧ i.wellFormed s.cfg = true ∧ isLoad i = false ∧ t = effect i s := by
  have hl : isLoad i = false := by
    cases i with
    | load p d =>
      simp only [exec, execLoad, hp] at h
      split at h <;> cases h
    | _ => rfl
  have hr : s.Ready := by
    cases i with
    | load p d => cases hl
    | _ => exact (whenLive_eq_next.mp h).1
  have hw : i.wellFormed s.cfg = true := by
    cases i with
    | rdLow a => exact (atRegion_eq_next.mp (whenLive_eq_next.mp h).2).1
    | rdWram a => exact (atRegion_eq_next.mp (whenLive_eq_next.mp h).2).1
    | rdProg a => exact (atRegion_eq_next.mp (whenLive_eq_next.mp h).2).1
    | rdPrnrsv a => exact (atRegion_eq_next.mp (whenLive_eq_next.mp h).2).1
    | rdUnmapped a => exact (atRegion_eq_next.mp (whenLive_eq_next.mp h).2).1
    | wrLow a v => exact (atRegion_eq_next.mp (whenLive_eq_next.mp h).2).1
    | wrWram a v => exact (atRegion_eq_next.mp (whenLive_eq_next.mp h).2).1
    | wrProg a v => exact (atRegion_eq_next.mp (whenLive_eq_next.mp h).2).1
    | wrPrnrsv a v => exact (atRegion_eq_next.mp (whenLive_eq_next.mp h).2).1
    | wrUnmapped a v => exact (atRegion_eq_next.mp (whenLive_eq_next.mp h).2).1
    | _ => rfl
  refine ⟨hr, hw, hl, ?_⟩
  have := exec_of_ready hr hw hl
  rw [h] at this
  exact Host.Outcome.next.inj this

/-- Any operation that answers a next state from a block not yet live is a `LOAD` of images of the right sizes. -/
theorem exec_next_unloaded {s t : State} {i : Instr} (hp : s.phase = .unloaded) (h : exec i s = .next t) :
    ∃ p d, i = .load p d ∧ s.cfg.wf = true ∧ p.length = s.cfg.progSize ∧ d.length = Config.dbankSize ∧
      t = ({ s with phase := .live, prog := Memory.ofBytes p, dbank := Memory.ofBytes d,
                    dispTerm := s.cfg.dispTerm } : State).resetBlock := by
  cases i with
  | load p d =>
    simp only [exec, execLoad, hp] at h
    split at h
    · split at h
      · split at h
        · exact ⟨p, d, rfl, ‹_›, ‹_›, ‹_›, (Host.Outcome.next.inj h).symm⟩
        · cases h
      · cases h
    · cases h
  | _ =>
    have := (whenLive_eq_next.mp h).1.live
    rw [hp] at this
    cases this

/-- No effect changes the configuration, the phase, an image, the terminator slot or the trace. -/
theorem effect_frame (i : Instr) (s : State) :
    (effect i s).cfg = s.cfg ∧ (effect i s).phase = s.phase ∧ (effect i s).prog = s.prog ∧
    (effect i s).dbank = s.dbank ∧ (effect i s).dispTerm = s.dispTerm ∧ (effect i s).trace = s.trace := by
  cases i <;> try exact ⟨rfl, rfl, rfl, rfl, rfl, rfl⟩
  case coin old => cases old <;> exact ⟨rfl, rfl, rfl, rfl, rfl, rfl⟩
  case service old => cases old <;> exact ⟨rfl, rfl, rfl, rfl, rfl, rfl⟩
  case assertLine l => cases l <;> exact ⟨rfl, rfl, rfl, rfl, rfl, rfl⟩

/-- A live block stays live: every operation that answers keeps the configuration and the phase. -/
theorem exec_next_ready {s t : State} {i : Instr} (hp : s.phase = .live) (h : exec i s = .next t) :
    t.Ready ∧ t.cfg = s.cfg := by
  obtain ⟨hr, -, -, rfl⟩ := exec_next_live hp h
  obtain ⟨hc, hph, -⟩ := effect_frame i s
  exact ⟨⟨hc ▸ hr.wf, hph.trans hp⟩, hc⟩

/-- Any sequence of operations is run one operation at a time. -/
theorem execAll_cons_next {i : Instr} {is : List Instr} {s u : State} :
    execAll (i :: is) s = .next u ↔ ∃ t, exec i s = .next t ∧ execAll is t = .next u := by
  simp only [execAll]
  cases h : exec i s <;> simp

theorem runSteps_succ {s t : State} (h : step s = .next t) (n : Nat) : runSteps (n + 1) s = runSteps n t := by
  simp only [runSteps, h]

/-- Running the machine is running the host's interface of it. -/
theorem runSteps_eq_core_run (n : Nat) (s : State) : runSteps n s = Sys2Proof.core.run n s := by
  induction n generalizing s with
  | zero => rfl
  | succ n ih =>
    simp only [runSteps, Host.Core.run]
    cases h : step s with
    | next t => rw [show Sys2Proof.core.step s = .next t from h]; exact ih t
    | fault r => rw [show Sys2Proof.core.step s = .fault r from h]; rfl
    | refused r => rw [show Sys2Proof.core.step s = .refused r from h]; rfl

/-- What a step can do: nothing where nothing is presented, and otherwise what the decoded operation does. -/
theorem step_next {s t : State} (h : step s = .next t) :
    (s.trace = [] ∧ t = s) ∨
    ∃ e rest i, s.trace = e :: rest ∧ decodeEvent s.cfg e = .ok i ∧ exec i { s with trace := rest } = .next t := by
  unfold step at h
  split at h
  · exact .inl ⟨‹_›, (Host.Outcome.next.inj h).symm⟩
  · split at h
    · exact .inr ⟨_, _, _, ‹_›, ‹_›, h⟩
    · cases h

/-- On a live block a sequence of operations that exist, with no `LOAD` among them, answers its effects in order. -/
theorem execAll_of_ready : ∀ {is : List Instr} {s : State}, s.Ready →
    (is.all fun i => i.wellFormed s.cfg && !isLoad i) = true → execAll is s = .next (is.foldl (fun s i => effect i s) s)
  | [], _, _, _ => rfl
  | i :: is, s, hs, h => by
    simp only [List.all_cons, Bool.and_eq_true, Bool.not_eq_true'] at h
    have h1 := exec_of_ready hs h.1.1 h.1.2
    have h2 := exec_next_ready hs.live h1
    refine execAll_cons_next.mpr ⟨_, h1, execAll_of_ready h2.1 ?_⟩
    rw [h2.2]
    simpa only [Bool.and_eq_true, Bool.not_eq_true'] using h.2

/-- What an operation does to a quantity, it does along every sequence of them: the induction over operations, once. -/
theorem execAll_induction {P : State → Prop} (hP : ∀ s t i, s.phase = .live → P s → exec i s = .next t → P t) :
    ∀ (is : List Instr) (s t : State), s.phase = .live → P s → execAll is s = .next t → P t
  | [], s, t, _, hs, h => by cases h; exact hs
  | i :: is, s, u, hl, hs, h => by
    obtain ⟨t, h1, h2⟩ := execAll_cons_next.mp h
    exact execAll_induction hP is t u (exec_next_ready hl h1).1.live (hP s t i hl hs h1) h2

end Sys2Proof.Machine
end

