-- ==== Sys2Proof/Laws/PerInstr.lean ====
section
/-!
SUPPORT. Statements made instruction by instruction. `WordFits`: where an operation is presented as a transaction
word, the word has no bit outside the `1 + ADDR_BITS + 8` bits of spec/30_encoding.md R51.
-/

namespace Sys2Proof.Laws.WordFits

def Statement (i : Instr) : Prop :=
  ∀ (c : Cfg) (w : Nat), c.wf = true → i.wellFormed c = true → encode c i = .bus w → w < 2 ^ (c.addrBits + 9)

theorem of_readWord {c : Cfg} {a w : Nat} (h : a < 2 ^ c.addrBits) (he : readWord c a = .bus w) :
    w < 2 ^ (c.addrBits + 9) := by
  cases he
  exact busWord_lt h false 0

theorem of_writeWord {c : Cfg} {a w : Nat} {d : Byte} (h : a < 2 ^ c.addrBits) (he : writeWord c a d = .bus w) :
    w < 2 ^ (c.addrBits + 9) := by
  cases he
  exact busWord_lt h true d

theorem rdLow (addr : Nat) : Statement (.rdLow addr) := fun _ _ _ hi he => of_readWord (operandIn_iff.mp hi).1 he
theorem rdWram (addr : Nat) : Statement (.rdWram addr) := fun _ _ _ hi he => of_readWord (operandIn_iff.mp hi).1 he
theorem rdProg (addr : Nat) : Statement (.rdProg addr) := fun _ _ _ hi he => of_readWord (operandIn_iff.mp hi).1 he
theorem rdPrnrsv (addr : Nat) : Statement (.rdPrnrsv addr) := fun _ _ _ hi he => of_readWord (operandIn_iff.mp hi).1 he
theorem rdUnmapped (addr : Nat) : Statement (.rdUnmapped addr) := fun _ _ _ hi he => of_readWord (operandIn_iff.mp hi).1 he
theorem rdBanksel : Statement (.rdBanksel) := fun _ _ hc _ he => of_readWord (operandIn_iff.mp (region_banksel hc)).1 he
theorem rdDisprdy : Statement (.rdDisprdy) := fun _ _ hc _ he => of_readWord (operandIn_iff.mp (region_disp hc)).1 he
theorem rdPrnstat : Statement (.rdPrnstat) := fun _ _ hc _ he => of_readWord (operandIn_iff.mp (region_prnstat hc)).1 he
theorem rdSysin : Statement (.rdSysin) := fun _ _ hc _ he => of_readWord (operandIn_iff.mp (region_sysin hc)).1 he
theorem rdKey1 : Statement (.rdKey1) := fun _ _ hc _ he => of_readWord (operandIn_iff.mp (region_key1 hc)).1 he
theorem rdKey2 : Statement (.rdKey2) := fun _ _ hc _ he => of_readWord (operandIn_iff.mp (region_key2 hc)).1 he
theorem rdDipsw : Statement (.rdDipsw) := fun _ _ hc _ he => of_readWord (operandIn_iff.mp (region_dipsw hc)).1 he
theorem rdToneOn : Statement (.rdToneOn) := fun _ _ hc _ he => of_readWord (operandIn_iff.mp (region_toneOn hc)).1 he
theorem rdToneOff : Statement (.rdToneOff) := fun _ _ hc _ he => of_readWord (operandIn_iff.mp (region_toneOff hc)).1 he
theorem wrLow (addr : Nat) (data : Byte) : Statement (.wrLow addr data) := fun _ _ _ hi he => of_writeWord (operandIn_iff.mp hi).1 he
theorem wrWram (addr : Nat) (data : Byte) : Statement (.wrWram addr data) := fun _ _ _ hi he => of_writeWord (operandIn_iff.mp hi).1 he
theorem wrProg (addr : Nat) (data : Byte) : Statement (.wrProg addr data) := fun _ _ _ hi he => of_writeWord (operandIn_iff.mp hi).1 he
theorem wrPrnrsv (addr : Nat) (data : Byte) : Statement (.wrPrnrsv addr data) := fun _ _ _ hi he => of_writeWord (operandIn_iff.mp hi).1 he
theorem wrUnmapped (addr : Nat) (data : Byte) : Statement (.wrUnmapped addr data) := fun _ _ _ hi he => of_writeWord (operandIn_iff.mp hi).1 he
theorem wrBanksel (data : Byte) : Statement (.wrBanksel data) := fun _ _ hc _ he => of_writeWord (operandIn_iff.mp (region_banksel hc)).1 he
theorem wrDisp (data : Byte) : Statement (.wrDisp data) := fun _ _ hc _ he => of_writeWord (operandIn_iff.mp (region_disp hc)).1 he
theorem wrFirqack (data : Byte) : Statement (.wrFirqack data) := fun _ _ hc _ he => of_writeWord (operandIn_iff.mp (region_prnstat hc)).1 he
theorem wrNmiack (data : Byte) : Statement (.wrNmiack data) := fun _ _ hc _ he => of_writeWord (operandIn_iff.mp (region_sysin hc)).1 he
theorem wrKey1 (data : Byte) : Statement (.wrKey1 data) := fun _ _ hc _ he => of_writeWord (operandIn_iff.mp (region_key1 hc)).1 he
theorem wrKey2 (data : Byte) : Statement (.wrKey2 data) := fun _ _ hc _ he => of_writeWord (operandIn_iff.mp (region_key2 hc)).1 he
theorem wrOutctl (data : Byte) : Statement (.wrOutctl data) := fun _ _ hc _ he => of_writeWord (operandIn_iff.mp (region_dipsw hc)).1 he
theorem wrToneOn (data : Byte) : Statement (.wrToneOn data) := fun _ _ hc _ he => of_writeWord (operandIn_iff.mp (region_toneOn hc)).1 he
theorem wrToneOff (data : Byte) : Statement (.wrToneOff data) := fun _ _ hc _ he => of_writeWord (operandIn_iff.mp (region_toneOff hc)).1 he
theorem tick : Statement (.tick) := fun _ _ _ _ he => nomatch he
theorem coin (old : Bool) : Statement (.coin old) := fun _ _ _ _ he => nomatch he
theorem service (old : Bool) : Statement (.service old) := fun _ _ _ _ he => nomatch he
theorem assertLine (line : Line) : Statement (.assertLine line) := fun _ _ _ _ he => nomatch he
theorem obs (line : Line) : Statement (.obs line) := fun _ _ _ _ he => nomatch he
theorem render : Statement (.render) := fun _ _ _ _ he => nomatch he
theorem reset : Statement (.reset) := fun _ _ _ _ he => nomatch he
theorem load (prog : List Byte) (dbank : List Byte) : Statement (.load prog dbank) := fun _ _ _ _ he => nomatch he

end Sys2Proof.Laws.WordFits
end

