-- ==== Sys2Proof/Tests/Slice0.lean ====
section
/-!
SUPPORT. The model's own tests: expected results are those of spec/95_test_vectors.md (named V<n> below) or of the
opcode table's words, and one witness for the hypotheses of every statement.
-/

namespace Sys2Proof.Tests

open Sys2Proof.Machine

/-- One field of the next state, none where there is no next state. -/
def after {α : Type} (r : Result) (f : State → α) : Option α :=
  match r with
  | .next t => some (f t)
  | _ => none

/-- The refusal, none where there is none. -/
def refusal (r : Result) : Option Refusal :=
  match r with
  | .refused x => some x
  | _ => none

/-- `S0` of 95_test_vectors.md section 0, with the cells of `DBANK_T` and `PROG_T` that the tests read. -/
def s0 : State :=
  { State.reset with
    dbank := [(256, 0x05), (24575, 0xE4), (24576, 0xE5), (49408, 0xD4), (98303, 0xA2)]
    prog := [(0x1234, 0x6A), (0x3FFF, 0xBF)] }

/-- A live state in which every output and latch is set (V135). -/
def busy : State :=
  { s0 with wram := [(0x123, 0x77)], bank := 2, disp := shiftIn s0.disp 0x41, lockout := true, cut1 := true,
            toneEn := true, firq := true, nmi := true, coinCnt := 1 }

/-- One step that presents the transaction word `w`. -/
def bus (s : State) (w : Nat) : Result := step (s.withFetchWord 32 w)

/-! ### Decode: one word per bus row of the opcode table, written out as `rw`, four digits of address, two of data -/

theorem test_decode_rd_low : decodeTableWord 32 0x0010000 = some (.rdLow 0x0100) := by decide
theorem test_decode_rd_wram : decodeTableWord 32 0x06FFF00 = some (.rdWram 0x6FFF) := by decide
theorem test_decode_rd_prog : decodeTableWord 32 0x0FFFF00 = some (.rdProg 0xFFFF) := by decide
theorem test_decode_rd_prnrsv : decodeTableWord 32 0x0900E00 = some (.rdPrnrsv 0x900E) := by decide
theorem test_decode_rd_unmapped : decodeTableWord 32 0x0900F00 = some (.rdUnmapped 0x900F) := by decide
theorem test_decode_rd_banksel : decodeTableWord 32 0x0900C00 = some (.rdBanksel) := by decide
theorem test_decode_rd_disprdy : decodeTableWord 32 0x0900200 = some (.rdDisprdy) := by decide
theorem test_decode_rd_prnstat : decodeTableWord 32 0x0900000 = some (.rdPrnstat) := by decide
theorem test_decode_rd_sysin : decodeTableWord 32 0x0900100 = some (.rdSysin) := by decide
theorem test_decode_rd_key1 : decodeTableWord 32 0x0900300 = some (.rdKey1) := by decide
theorem test_decode_rd_key2 : decodeTableWord 32 0x0900400 = some (.rdKey2) := by decide
theorem test_decode_rd_dipsw : decodeTableWord 32 0x0900500 = some (.rdDipsw) := by decide
theorem test_decode_rd_tone_on : decodeTableWord 32 0x0900A00 = some (.rdToneOn) := by decide
theorem test_decode_rd_tone_off : decodeTableWord 32 0x0900B00 = some (.rdToneOff) := by decide
theorem test_decode_wr_low : decodeTableWord 32 0x15FFFAA = some (.wrLow 0x5FFF 0xAA) := by decide
theorem test_decode_wr_wram : decodeTableWord 32 0x160005A = some (.wrWram 0x6000 0x5A) := by decide
theorem test_decode_wr_prog : decodeTableWord 32 0x1C00012 = some (.wrProg 0xC000 0x12) := by decide
theorem test_decode_wr_prnrsv : decodeTableWord 32 0x1900755 = some (.wrPrnrsv 0x9007 0x55) := by decide
theorem test_decode_wr_unmapped : decodeTableWord 32 0x18000FF = some (.wrUnmapped 0x8000 0xFF) := by decide
theorem test_decode_wr_banksel : decodeTableWord 32 0x1900CFE = some (.wrBanksel 0xFE) := by decide
theorem test_decode_wr_disp : decodeTableWord 32 0x1900241 = some (.wrDisp 0x41) := by decide
theorem test_decode_wr_firqack : decodeTableWord 32 0x19000A5 = some (.wrFirqack 0xA5) := by decide
theorem test_decode_wr_nmiack : decodeTableWord 32 0x19001FF = some (.wrNmiack 0xFF) := by decide
theorem test_decode_wr_key1 : decodeTableWord 32 0x19003FF = some (.wrKey1 0xFF) := by decide
theorem test_decode_wr_key2 : decodeTableWord 32 0x19004FF = some (.wrKey2 0xFF) := by decide
theorem test_decode_wr_outctl : decodeTableWord 32 0x19005FA = some (.wrOutctl 0xFA) := by decide
theorem test_decode_wr_tone_on : decodeTableWord 32 0x1900A55 = some (.wrToneOn 0x55) := by decide
theorem test_decode_wr_tone_off : decodeTableWord 32 0x1900BFF = some (.wrToneOff 0xFF) := by decide

/-- Bit 25 is outside the 25-bit transaction word (R51). -/
theorem test_decode_too_wide : decodeTableWord 32 0x2000000 = none := by decide

/-- The data field of a read is ignored by decode (R51, R52). -/
theorem test_decode_read_data_ignored : decodeTableWord 32 0x09000FF = some .rdPrnstat := by decide

/-- V10 to V31: the boundaries of the regions under `REFMAP`. -/
theorem test_regions :
    [0x0000, 0x5FFF, 0x6000, 0x6FFF, 0x7000, 0x8FFF, 0x9000, 0x9001, 0x9002, 0x9003, 0x9004, 0x9005].map
      (region Cfg.refmap) =
      [.low, .low, .wram, .wram, .unmapped, .unmapped, .prnstat, .sysin, .disp, .key1, .key2, .dipsw] ∧
    [0x9006, 0x9007, 0x9008, 0x9009, 0x900A, 0x900B, 0x900C, 0x900D, 0x900E, 0x900F, 0xBFFF, 0xC000, 0xFFFF].map
      (region Cfg.refmap) =
      [.prnrsv, .prnrsv, .unmapped, .unmapped, .toneOn, .toneOff, .banksel, .prnrsv, .prnrsv, .unmapped, .unmapped,
       .prog, .prog] := by decide

/-! ### Well-formedness: a term that each check refuses -/

theorem test_refmap_wf : Cfg.refmap.wf = true := by decide

/-- R3 (a): the program range leaves the address space. -/
theorem test_cfg_off_bus_refused : ({ Cfg.refmap with progSize := 0x4001 } : Cfg).wf = false := by decide

/-- R3 (b): the display address lies in working memory; a reserved address is a register's. -/
theorem test_cfg_overlap_refused :
    ({ Cfg.refmap with aDisp := 0x6000 } : Cfg).wf = false ∧
    ({ Cfg.refmap with prnReserved := [0x9000] } : Cfg).wf = false := by decide

/-- R3 (d), (e): empty memories, and a low window above the program range. -/
theorem test_cfg_empty_or_high_refused :
    ({ Cfg.refmap with wramSize := 0 } : Cfg).wf = false ∧ ({ Cfg.refmap with progSize := 0 } : Cfg).wf = false ∧
    ({ Cfg.refmap with addrBits := 17, lowBase := 0x10000 } : Cfg).wf = false := by decide

/-- The empty reserved set is legal (D5). -/
theorem test_cfg_no_reserved_wf : ({ Cfg.refmap with prnReserved := [] } : Cfg).wf = true := by decide

theorem test_operands_of_other_regions_refused :
    (Instr.rdLow 0x6000).wellFormed Cfg.refmap = false ∧ (Instr.rdWram 0x5FFF).wellFormed Cfg.refmap = false ∧
    (Instr.rdProg 0xBFFF).wellFormed Cfg.refmap = false ∧ (Instr.rdPrnrsv 0x9008).wellFormed Cfg.refmap = false ∧
    (Instr.rdUnmapped 0x9006).wellFormed Cfg.refmap = false ∧ (Instr.wrLow 0x6000 0).wellFormed Cfg.refmap = false ∧
    (Instr.wrWram 0x7000 0).wellFormed Cfg.refmap = false ∧ (Instr.wrProg 0xBFFF 0).wellFormed Cfg.refmap = false ∧
    (Instr.wrPrnrsv 0x900C 0).wellFormed Cfg.refmap = false ∧
    (Instr.wrUnmapped 0x900E 0).wellFormed Cfg.refmap = false := by decide

theorem test_address_off_bus_refused : (Instr.rdUnmapped 0x10000).wellFormed Cfg.refmap = false := by decide

/-! ### One step per operation -/

/-- V6 step 5, V63 (last reachable byte, at bank 3). -/
theorem test_rd_low :
    after (bus { s0 with bank := 2 } 0x0010000) (·.reply) = some (.byte 0xD4) ∧
    after (bus { s0 with bank := 3 } 0x05FFF00) (·.reply) = some (.byte 0xA2) := by decide

/-- V35; V36, after the write of 0x5A. -/
theorem test_rd_wram :
    after (bus s0 0x0600000) (·.reply) = some (.byte 0x00) ∧
    after (bus { s0 with wram := [(0xFFF, 0x5A)] } 0x06FFF00) (·.reply) = some (.byte 0x5A) := by decide

/-- V38. -/
theorem test_rd_prog :
    after (bus { s0 with bank := 3 } 0x0FFFF00) (·.reply) = some (.byte 0xBF) ∧
    after (bus s0 0x0D23400) (·.reply) = some (.byte 0x6A) := by decide

/-- V36, V37: the last write wins, and a zero leaves nothing listed. -/
theorem test_wr_wram :
    after (bus s0 0x16FFF5A) (·.wram) = some [(0xFFF, 0x5A)] ∧
    after (bus { s0 with wram := [(0, 0x11), (5, 0x01)] } 0x1600022) (·.wram) = some [(0, 0x22), (5, 0x01)] ∧
    after (bus { s0 with wram := [(0, 0x11)] } 0x1600000) (·.wram) = some [] := by decide

/-- V34, V39, V51, V53, V102: the ignored writes. -/
theorem test_ignored_writes :
    [0x10100AA, 0x1C00012, 0x18000FF, 0x1900601, 0x1900D01, 0x1900801, 0x19003FF, 0x19004FF].map
      (fun w => after (bus s0 w) id) = List.replicate 8 (some s0) := by rfl

/-- V50, V52, V74, V118, V119: an open-bus read leaves the block as it was. -/
theorem test_open_bus_reads :
    [0x0800000, 0x0900600, 0x0900C00, 0x0900A00, 0x0900B00].map
      (fun w => after (bus busy w) (fun t => ({ t with reply := .nothing, draws := 0 } : State))) =
      List.replicate 5 (some busy) := by rfl

/-- V94, V101: an input read leaves the block as it was and does not acknowledge. -/
theorem test_input_reads :
    [0x0900100, 0x0900300, 0x0900400, 0x0900500].map
      (fun w => after (bus busy w) (fun t => ({ t with reply := .nothing, draws := 0 } : State))) =
      List.replicate 4 (some busy) := by rfl

/-- V100, V83: the printer status is 0xFF and the read does not acknowledge. -/
theorem test_rd_prnstat :
    after (bus busy 0x0900000) (·.reply) = some (.byte 0xFF) ∧
    after (bus busy 0x0900000) (·.firq) = some true := by decide

/-- V48: always ready, no read-back. -/
theorem test_rd_disprdy : after (bus busy 0x0900200) (·.reply) = some (.byte 0x00) := by decide

/-- V64, V69, V70: the two low bits of the data byte. -/
theorem test_wr_banksel :
    after (bus { s0 with bank := 1 } 0x1900C04) (·.bank) = some 0 ∧
    after (bus s0 0x1900CFF) (·.bank) = some 3 ∧ after (bus s0 0x1900CFE) (·.bank) = some 2 := by decide

/-- V41; the second of V44's writes. -/
theorem test_wr_disp :
    after (bus s0 0x1900241) (·.disp.toList) = some (List.replicate 19 0x20 ++ [0x41]) ∧
    after (bus busy 0x1900241) (·.disp.toList) = some (List.replicate 18 0x20 ++ [0x41, 0x41]) := by decide

/-- V43: a control byte is stored as it is. -/
theorem test_wr_disp_control :
    after (bus busy 0x1900200) (·.disp.toList) = some (List.replicate 18 0x20 ++ [0x41, 0x00]) := by decide

/-- V41 as `RENDER` shows it; V46. -/
theorem test_render :
    after (exec .render busy) (·.reply) = some (.line busy.disp) ∧
    after (exec .render s0) (·.reply) = some (.line (Vector.replicate 20 0x20)) := by decide

/-- V81. -/
theorem test_tick :
    after (exec .tick s0) (·.firq) = some true ∧ after (exec .tick s0) (·.nmi) = some false := by decide

/-- V85, V95: any data byte, and the other line is left alone. -/
theorem test_wr_firqack :
    after (bus busy 0x19000A5) (·.firq) = some false ∧ after (bus busy 0x19000A5) (·.nmi) = some true := by decide

/-- V92, V84: the counter stays, and the other line is left alone. -/
theorem test_wr_nmiack :
    after (bus busy 0x1900100) (fun t => (t.nmi, t.coinCnt)) = some (false, 1) ∧
    after (bus busy 0x1900100) (·.firq) = some true := by decide

/-- V87, V97: the press edge does nothing; the release edge counts though the lockout is active. -/
theorem test_coin :
    after (exec (.coin false) s0) (fun t => (t.nmi, t.coinCnt)) = some (false, 0) ∧
    after (exec (.coin true) { s0 with lockout := true }) (fun t => (t.nmi, t.coinCnt)) = some (true, 1) := by decide

/-- V90, V91. -/
theorem test_service :
    after (exec (.service false) s0) (fun t => (t.nmi, t.coinCnt)) = some (false, 0) ∧
    after (exec (.service true) s0) (fun t => (t.nmi, t.coinCnt)) = some (true, 0) := by decide

/-- V99. -/
theorem test_assert :
    after (exec (.assertLine .nmi) s0) (fun t => (t.firq, t.nmi, t.coinCnt)) = some (false, true, 0) ∧
    after (exec (.assertLine .firq) s0) (fun t => (t.firq, t.nmi)) = some (true, false) := by decide

/-- V80, V81. -/
theorem test_obs :
    after (exec (.obs .firq) { s0 with firq := true }) (·.reply) = some (.level true) ∧
    after (exec (.obs .nmi) { s0 with firq := true }) (·.reply) = some (.level false) := by decide

/-- V105, V106, V109, V111: `LOCKOUT`, `CUT1`, `CUT2`. -/
theorem test_wr_outctl :
    [0x1900502, 0x1900504, 0x19005F8, 0x19005FF].map
      (fun w => after (bus s0 w) (fun t => (t.lockout, t.cut1, t.cut2))) =
      [some (true, true, false), some (true, false, true), some (true, false, false), some (false, true, true)] := by
  decide

/-- V112: every write sets all three. -/
theorem test_wr_outctl_all_three :
    after (bus busy 0x1900501) (fun t => (t.lockout, t.cut1, t.cut2)) = some (false, false, false) := by decide

/-- V114, V115. -/
theorem test_wr_tone_on :
    after (bus s0 0x1900A00) (·.toneEn) = some true ∧ after (bus busy 0x1900AAA) (·.toneEn) = some true := by decide

/-- V116, V117. -/
theorem test_wr_tone_off :
    after (bus busy 0x1900BFF) (·.toneEn) = some false ∧ after (bus s0 0x1900B00) (·.toneEn) = some false := by decide

/-- V136, V137. -/
theorem test_reset :
    after (exec .reset busy) (·.wram) = some [] ∧
    after (exec .reset busy) (fun t => t.disp.toList) = some (List.replicate 20 0x20) ∧
    after (exec .reset busy) (fun t => [t.lockout, t.firq, t.nmi, t.cut1, t.cut2, t.toneEn]) =
      some (List.replicate 6 false) ∧
    after (exec .reset busy) (fun t => (t.bank.toNat, t.coinCnt)) = some (0, 0) := by decide

/-- V130, with blank images: `LOAD` gives the state after reset (R181). -/
theorem test_load :
    exec (.load (List.replicate 0x4000 unlistedByte) (List.replicate Config.dbankSize unlistedByte)) State.beforeLoad =
      .next State.reset := by
  have h : State.beforeLoad.cfg.wf = true := test_refmap_wf
  have h1 : (List.replicate 0x4000 unlistedByte).length = State.beforeLoad.cfg.progSize := List.length_replicate
  have h2 : (List.replicate Config.dbankSize unlistedByte).length = Config.dbankSize := List.length_replicate
  simp only [exec, execLoad, h, h1, h2, if_true, Memory.ofBytes, Memory.ofBytesAt_replicate]
  rfl

/-- V131 (a program of the wrong size) and V133 (four windows only). -/
theorem test_load_error (four : List Byte) (h4 : four.length = 98304) :
    refusal (exec (.load [] four) State.beforeLoad) = some (.loadError .program) ∧
    refusal (exec (.load (List.replicate 0x4000 0) four) State.beforeLoad) = some (.loadError .databank) := by
  have h : State.beforeLoad.cfg.wf = true := test_refmap_wf
  have h1 : (List.replicate 0x4000 (0 : Byte)).length = State.beforeLoad.cfg.progSize := List.length_replicate
  have h2 : ¬ four.length = Config.dbankSize := by
    rw [h4]
    decide
  have h0 : ¬ ([] : List Byte).length = State.beforeLoad.cfg.progSize := by decide
  have hp : State.beforeLoad.phase = .unloaded := rfl
  simp only [exec, execLoad, h, hp, h0, h1, h2, if_true, if_false, refusal, and_self]

/-- An image lists its bytes at their own index. -/
theorem test_ofBytes : Memory.ofBytes [0x11, 0x00, 0x22] = [(0, 0x11), (2, 0x22)] := by decide

/-- R63: `select(2)` and an acknowledge are writes to their own registers. -/
theorem test_pseudo :
    expandPseudo Cfg.refmap (.select 0x02) = [.bus 0x1900C02] ∧
    expandPseudo Cfg.refmap (.ackNmi 0x00) = [.bus 0x1900100] := by decide

/-- The outputs follow the state (R26). -/
theorem test_outputs : (busy.outputs.fastInterrupt, busy.outputs.coinLockout, busy.outputs.coinCounter) = (true, true, 1) :=
  rfl

/-! ### Witnesses: a concrete state and operands that meet the hypotheses of each statement -/

/-- `s.Ready`, the only hypothesis of the statements about `RENDER`, `TICK`, the acknowledges, `COIN`, `SERVICE`,
`ASSERT`, `OBS`, `WR_BANKSEL`, `WR_DISP`, `WR_OUTCTL`, the tone writes, the input and constant reads and `RESET`. -/
theorem witness_ready : State.reset.Ready ∧ s0.Ready ∧ busy.Ready :=
  ⟨⟨test_refmap_wf, rfl⟩, ⟨test_refmap_wf, rfl⟩, ⟨test_refmap_wf, rfl⟩⟩

theorem witness_DecodeOfEncodeIsTheOperation :
    Cfg.refmap.wf = true ∧ (Instr.wrWram 0x6FFF 0x5A).wellFormed Cfg.refmap = true := by decide

theorem witness_EncodeOfDecodeIsTheWord :
    Cfg.refmap.wf = true ∧ decodeWord Cfg.refmap 0x09000FF = .ok .rdPrnstat ∧
    decodeWord Cfg.refmap 0x1FFFFFF = .ok (.wrProg 0xFFFF 0xFF) := ⟨test_refmap_wf, rfl, rfl⟩

/-- Each clause at its boundary: the widest word, and the first number past it. -/
theorem witness_EveryTransactionWordDecodes :
    0x1FFFFFF < 2 ^ (1 + Cfg.refmap.addrBits + 8) ∧ 2 ^ (1 + Cfg.refmap.addrBits + 8) ≤ 0x2000000 ∧
    decodeWord Cfg.refmap 0x2000000 = .error .wordTooWide := ⟨by decide, by decide, rfl⟩

/-- Every region has an address under `REFMAP` (the two table statements; `test_regions` has the boundaries). -/
theorem witness_decode_tables :
    (∀ a ∈ [0x0000, 0x6000, 0xC000, 0x9006, 0x8000, 0x900C, 0x9002, 0x9000, 0x9001, 0x9003, 0x9004, 0x9005, 0x900A,
      0x900B], a < 2 ^ Cfg.refmap.addrBits) ∧
    [0x0000, 0x6000, 0xC000, 0x9006, 0x8000, 0x900C, 0x9002, 0x9000, 0x9001, 0x9003, 0x9004, 0x9005, 0x900A,
      0x900B].map (region Cfg.refmap) =
      [.low, .wram, .prog, .prnrsv, .unmapped, .banksel, .disp, .prnstat, .sysin, .key1, .key2, .dipsw, .toneOn,
       .toneOff] := by decide

theorem witness_StepRunsThePresentedOperation :
    ({ s0 with trace := [.tick, .render] } : State).trace = .tick :: [.render] ∧
    decodeEvent s0.cfg .tick = .ok .tick ∧ decodeWord s0.cfg 0x1900C02 = .ok (.wrBanksel 0x02) := ⟨rfl, rfl, rfl⟩

theorem witness_StepIdlesOrRefusesNonTransactions :
    s0.trace = [] ∧ (s0.withFetchWord 32 0x2000000).trace = .bus 0x2000000 :: [] ∧
    2 ^ (s0.cfg.addrBits + 9) ≤ 0x2000000 := ⟨rfl, rfl, by decide⟩

/-- The low window's first and last byte, at banks 0 and 3. -/
theorem witness_RdLowReturnsTheBankedByte :
    s0.Ready ∧ 0x5FFF < 2 ^ s0.cfg.addrBits ∧ region s0.cfg 0x0000 = .low ∧ region s0.cfg 0x5FFF = .low :=
  ⟨witness_ready.2.1, by decide⟩

theorem witness_wram_operand :
    s0.Ready ∧ Memory.WF busy.wram ∧ 0x6FFF < 2 ^ s0.cfg.addrBits ∧ region s0.cfg 0x6000 = .wram ∧
    region s0.cfg 0x6FFF = .wram := ⟨witness_ready.2.1, by decide⟩

theorem witness_RdProgReturnsTheProgramByte :
    s0.Ready ∧ 0xFFFF < 2 ^ s0.cfg.addrBits ∧ region s0.cfg 0xC000 = .prog ∧ region s0.cfg 0xFFFF = .prog :=
  ⟨witness_ready.2.1, by decide⟩

/-- One address for each clause of the ignored writes and of the open-bus reads. -/
theorem witness_IgnoredWritesAndOpenBusReads :
    s0.Ready ∧ 0xFFFF < 2 ^ s0.cfg.addrBits ∧ region s0.cfg 0x5FFF = .low ∧ region s0.cfg 0xFFFF = .prog ∧
    region s0.cfg 0x900E = .prnrsv ∧ region s0.cfg 0x900F = .unmapped ∧ 0x9003 = s0.cfg.aKey1 ∧
    0x9004 = s0.cfg.aKey2 := ⟨witness_ready.2.1, by decide⟩

/-- The law of the window, with another write and an event between. -/
theorem witness_WindowShowsTheLastBankSelected :
    ∃ t u, exec (.wrBanksel 0x07) s0 = .next t ∧ execAll [.coin true, .wrLow 0x0100 0] t = .next u ∧
      (∀ w, .wrBanksel w ∉ [Instr.coin true, .wrLow 0x0100 0]) ∧ .reset ∉ [Instr.coin true, .wrLow 0x0100 0] ∧
      24575 < 24576 :=
  ⟨_, _, exec_of_ready witness_ready.2.1 rfl rfl,
    execAll_of_ready ⟨test_refmap_wf, rfl⟩ (by decide), by simp, by simp, by decide⟩

theorem witness_ChunksFourAndFiveAreUnreachable :
    (∀ k, k < 98304 → Memory.read [(98304, 0x01)] k = State.reset.dbank.read k) ∧
    (∃ t, exec (.rdLow 0x5FFF) State.reset = .next t) ∧ State.reset.phase = .live :=
  ⟨fun k hk => if_neg (by omega), ⟨_, exec_of_ready witness_ready.1 (by decide) rfl⟩, rfl⟩

/-- Both clauses: 20 writes, and one write. -/
theorem witness_DisplayHoldsTheLastTwentyBytes :
    (∃ t, execAll (List.replicate 20 (.wrDisp 0x41)) s0 = .next t) ∧ s0.phase = .live ∧
    .reset ∉ List.replicate 20 (Instr.wrDisp 0x41) ∧
    20 ≤ (displayWrites (List.replicate 20 (.wrDisp 0x41))).length ∧
    (∃ t, execAll [.wrDisp 0x41, .tick] s0 = .next t) ∧ (displayWrites [.wrDisp 0x41, .tick]).length < 20 :=
  ⟨⟨_, execAll_of_ready witness_ready.2.1 (by decide)⟩, rfl, by simp, by decide,
    ⟨_, execAll_of_ready witness_ready.2.1 (by decide)⟩, by decide⟩

/-- A live block and a sequence of operations that runs: the statements along sequences of operations. -/
theorem witness_sequences :
    s0.phase = .live ∧ Memory.WF s0.wram ∧
    ∃ t, execAll [.tick, .coin true, .wrToneOn 0, .wrWram 0x6000 0x11, .wrFirqack 0] s0 = .next t ∧
      .reset ∉ [Instr.tick, .coin true, .wrToneOn 0, .wrWram 0x6000 0x11, .wrFirqack 0] :=
  ⟨rfl, by decide, _, execAll_of_ready witness_ready.2.1 (by decide), by simp⟩

/-- A live block, an operation that answers, and for each latch one that changes it. -/
theorem witness_single_operations :
    s0.phase = .live ∧ (∃ t, exec .tick s0 = .next t ∧ t.firq ≠ s0.firq) ∧
    (∃ t, exec (.service true) s0 = .next t ∧ t.nmi ≠ s0.nmi) ∧ Instr.tick ≠ .reset :=
  ⟨rfl, ⟨_, exec_of_ready witness_ready.2.1 rfl rfl, by decide⟩,
    ⟨_, exec_of_ready witness_ready.2.1 rfl rfl, by decide⟩, by decide⟩

/-- `EachFieldHasItsOwnWriters`: a render meets the hypothesis of every clause. -/
theorem witness_EachFieldHasItsOwnWriters :
    s0.phase = .live ∧ (∃ t, exec .render s0 = .next t) ∧ Instr.render ≠ .reset ∧ (∀ v, Instr.render ≠ .wrOutctl v) ∧
    (∀ v, Instr.render ≠ .wrToneOn v ∧ Instr.render ≠ .wrToneOff v) ∧ Instr.render ≠ .coin true ∧
    Instr.render ≠ .tick ∧ (∀ l, Instr.render ≠ .assertLine l) ∧ (∀ v, Instr.render ≠ .wrFirqack v) ∧
    Instr.render ≠ .service true ∧ (∀ v, Instr.render ≠ .wrNmiack v) ∧
    (∀ v, Instr.render ≠ .wrBanksel v) ∧ (∀ v, Instr.render ≠ .wrDisp v) ∧ (∀ a v, Instr.render ≠ .wrWram a v) :=
  ⟨rfl, ⟨_, exec_of_ready witness_ready.2.1 rfl rfl⟩, by simp⟩

theorem witness_LatchesDoNotCountEvents :
    s0.Ready ∧ (∃ t, exec .tick s0 = .next t) ∧ [Instr.coin true, .service true] ≠ [] ∧
    (∀ i ∈ [Instr.coin true, .service true], i = .coin true ∨ i = .service true) ∧
    ∃ t, execAll [.coin true, .service true] s0 = .next t :=
  ⟨witness_ready.2.1, ⟨_, exec_of_ready witness_ready.2.1 rfl rfl⟩, by simp, by simp,
    ⟨_, execAll_of_ready witness_ready.2.1 (by decide)⟩⟩

theorem witness_SwitchPressesSetNmiOnRelease :
    ({ s0 with trace := [.coin false, .coin true, .tick] } : State).Ready ∧
    ({ s0 with trace := [.coin false, .coin true, .tick] } : State).trace =
      expandPseudo s0.cfg .coinInsert ++ [.tick] ∧
    ({ s0 with trace := [.service false, .service true] } : State).trace = expandPseudo s0.cfg .servicePress ++ [] :=
  ⟨⟨test_refmap_wf, rfl⟩, rfl, rfl⟩

theorem witness_SimultaneousEventsCommute :
    s0.Ready ∧ (Instr.tick = .tick ∨ (∃ b, Instr.tick = .coin b) ∨ ∃ b, Instr.tick = .service b) ∧
    (Instr.coin true = .tick ∨ (∃ b, Instr.coin true = .coin b) ∨ ∃ b, Instr.coin true = .service b) :=
  ⟨witness_ready.2.1, .inl rfl, .inr (.inl ⟨true, rfl⟩)⟩

theorem witness_BusMasterNeverSetsALatch :
    (busy.withFetchWord 32 0x1900000).trace = .bus 0x1900000 :: busy.trace ∧
    Event.agent (.bus 0x1900000) = .busMaster ∧ Event.agent (.obs .nmi) = .busMaster ∧
    ∃ t, step (busy.withFetchWord 32 0x1900000) = .next t ∧ t.nmi = true :=
  ⟨rfl, rfl, rfl, _,
    (by rfl : step (busy.withFetchWord 32 0x1900000) = exec (.wrFirqack 0) busy).trans
      (exec_of_ready witness_ready.2.2 rfl rfl), rfl⟩

/-- Two states that differ in everything a bus read cannot see. -/
theorem witness_BusReadsSeeOnlyMemoryAndBank :
    ∃ t t', exec (.rdLow 0x0100) busy = .next t ∧
      exec (.rdLow 0x0100) { busy with firq := false, nmi := false, disp := s0.disp, toneEn := false } = .next t' ∧
      t.reply = .byte 0xD4 :=
  ⟨_, _, exec_of_ready witness_ready.2.2 (by decide) rfl,
    exec_of_ready (s := { busy with firq := false, nmi := false, disp := s0.disp, toneEn := false })
      ⟨test_refmap_wf, rfl⟩ (by decide) rfl, by decide⟩

theorem witness_ReadsChangeNoState :
    isBusRead (.rdSysin) = true ∧ (∃ t, exec .rdSysin busy = .next t) ∧ (∃ t, exec (.obs .nmi) busy = .next t) ∧
    ∃ t, exec .render busy = .next t :=
  ⟨rfl, ⟨_, exec_of_ready witness_ready.2.2 rfl rfl⟩, ⟨_, exec_of_ready witness_ready.2.2 rfl rfl⟩,
    ⟨_, exec_of_ready witness_ready.2.2 rfl rfl⟩⟩

theorem witness_OnlyReadsReturnAValue :
    isBusRead (.wrDisp 0x41) = false ∧ (∀ l, Instr.wrDisp 0x41 ≠ .obs l) ∧ Instr.wrDisp 0x41 ≠ .render ∧
    ∃ t, exec (.wrDisp 0x41) s0 = .next t :=
  ⟨rfl, by simp, by simp, _, exec_of_ready witness_ready.2.1 rfl rfl⟩

theorem witness_WritesButTheDisplaysAreIdempotent :
    Memory.WF busy.wram ∧ isBusWrite (.wrWram 0x6123 0x78) = true ∧ (∀ v, Instr.wrWram 0x6123 0x78 ≠ .wrDisp v) ∧
    ∃ t, exec (.wrWram 0x6123 0x78) busy = .next t :=
  ⟨by decide, rfl, by simp, _, exec_of_ready witness_ready.2.2 (by decide) rfl⟩

theorem witness_ImagesAndConfigurationNeverChange :
    (s0.withFetchWord 32 0x1C00012).phase = .live ∧ ∃ t, step (s0.withFetchWord 32 0x1C00012) = .next t :=
  ⟨rfl, _, (by rfl : step (s0.withFetchWord 32 0x1C00012) = exec (.wrProg 0xC000 0x12) s0).trans
    (exec_of_ready witness_ready.2.1 (by decide) rfl)⟩

theorem witness_EveryOperationOfALiveBlockCompletes :
    s0.Ready ∧ (Instr.rdUnmapped 0x8000).wellFormed s0.cfg = true ∧ isLoad (.rdUnmapped 0x8000) = false :=
  ⟨witness_ready.2.1, by decide, rfl⟩

theorem witness_EveryTraceRunsToItsEnd :
    ({ s0 with trace := [.bus 0x1FFFFFF, .coin true, .reset] } : State).Ready ∧
    ∀ e ∈ [Event.bus 0x1FFFFFF, .coin true, .reset], eventServable s0.cfg e = true :=
  ⟨⟨test_refmap_wf, rfl⟩, by decide⟩

/-- The invariant is met by a state that is not the reset state, and a step answers from it. -/
theorem witness_InvariantIsKept : (busy.withFetchWord 32 0x16FFF5A).Inv ∧
    ∃ t, step (busy.withFetchWord 32 0x16FFF5A) = .next t :=
  ⟨⟨test_refmap_wf, by decide, by decide, by decide, by decide, by decide, by decide, fun _ => rfl⟩, _,
    (by rfl : step (busy.withFetchWord 32 0x16FFF5A) = exec (.wrWram 0x6FFF 0x5A) busy).trans
      (exec_of_ready witness_ready.2.2 (by decide) rfl)⟩

theorem witness_LoadFixesTheImagesAndResets :
    State.beforeLoad.cfg.wf = true ∧ State.beforeLoad.phase = .unloaded ∧
    (List.replicate 0x4000 (0x12 : Byte)).length = State.beforeLoad.cfg.progSize ∧
    (List.replicate 147456 (0x34 : Byte)).length = 147456 :=
  ⟨test_refmap_wf, rfl, List.length_replicate, List.length_replicate⟩

/-- Each clause of the failing load: one byte too few, four windows only, a live block. -/
theorem witness_LoadRefusesWrongSizesAndRepeats :
    State.beforeLoad.cfg.wf = true ∧ State.beforeLoad.phase = .unloaded ∧
    (List.replicate 0x3FFF (0 : Byte)).length ≠ State.beforeLoad.cfg.progSize ∧
    (List.replicate 0x4000 (0 : Byte)).length = State.beforeLoad.cfg.progSize ∧
    (List.replicate 98304 (0 : Byte)).length ≠ 147456 ∧ State.reset.phase = .live :=
  ⟨test_refmap_wf, rfl, by rw [List.length_replicate]; decide, List.length_replicate,
    by rw [List.length_replicate]; decide, rfl⟩

/-- Each clause of the refusals: an ill-formed configuration, a block before `LOAD`, an operand of another region. -/
theorem witness_RefusalsOutsideALiveBlock :
    ({ s0 with cfg := { Cfg.refmap with wramSize := 0 } } : State).cfg.wf = false ∧
    State.beforeLoad.cfg.wf = true ∧ State.beforeLoad.phase = .unloaded ∧ isLoad .tick = false ∧
    s0.Ready ∧ (Instr.rdLow 0x6000).wellFormed s0.cfg = false :=
  ⟨by decide, test_refmap_wf, rfl, rfl, witness_ready.2.1, by decide⟩

/-- A read for the clauses of what changes nothing, and one write for each clause of what an output becomes. -/
theorem witness_OutputsChangeOnlyWithTheirWriters :
    busy.phase = .live ∧ (∃ t, exec .rdPrnstat busy = .next t) ∧ isBusRead .rdPrnstat = true ∧
    (∃ t, exec (.wrOutctl 0x04) busy = .next t) ∧ (∃ t, exec (.wrDisp 0x42) busy = .next t) ∧
    (∀ v, Instr.rdPrnstat ≠ .wrOutctl v) ∧ (∀ v, Instr.rdPrnstat ≠ .wrDisp v) ∧ Instr.rdPrnstat ≠ .reset :=
  ⟨rfl, ⟨_, exec_of_ready witness_ready.2.2 rfl rfl⟩, rfl, ⟨_, exec_of_ready witness_ready.2.2 rfl rfl⟩,
    ⟨_, exec_of_ready witness_ready.2.2 rfl rfl⟩, by simp⟩

end Sys2Proof.Tests
end

section
/-!
The dispatcher's memory regions (spec/40_dispatcher.md): `RD_LOW`, `RD_PROG` and the ignored writes. A bus transaction
is settled in two parts, which row of the tables R53 and R54 its address selects, and what the operation of that row
does on a ready block.
-/

namespace Sys2Proof

/-! ### Rows of the decode tables (R53, R54) -/

section Rows

variable {c : Cfg} {a : Nat}

theorem decodeRead_low (h : region c a = .low) : decodeRead c a = .rdLow a := by
  rw [decodeRead, h]

theorem decodeRead_prog (h : region c a = .prog) : decodeRead c a = .rdProg a := by
  rw [decodeRead, h]

theorem decodeWrite_low (h : region c a = .low) (v : Byte) : decodeWrite c a v = .wrLow a v := by
  rw [decodeWrite, h]

theorem decodeWrite_prog (h : region c a = .prog) (v : Byte) : decodeWrite c a v = .wrProg a v := by
  rw [decodeWrite, h]

theorem decodeWrite_prnrsv (h : region c a = .prnrsv) (v : Byte) : decodeWrite c a v = .wrPrnrsv a v := by
  rw [decodeWrite, h]

theorem decodeWrite_unmapped (h : region c a = .unmapped) (v : Byte) : decodeWrite c a v = .wrUnmapped a v := by
  rw [decodeWrite, h]

theorem decodeWrite_aKey1 (hc : c.wf = true) (v : Byte) : decodeWrite c c.aKey1 v = .wrKey1 v := by
  rw [decodeWrite, (operandIn_iff.mp (region_key1 hc)).2]

theorem decodeWrite_aKey2 (hc : c.wf = true) (v : Byte) : decodeWrite c c.aKey2 v = .wrKey2 v := by
  rw [decodeWrite, (operandIn_iff.mp (region_key2 hc)).2]

end Rows

/-! ### Transactions on a ready block -/

namespace Machine

section Transactions

variable {s : State} {a : Nat} {i : Instr}

theorem isLoad_decodeRead (c : Cfg) (a : Nat) : isLoad (decodeRead c a) = false := by
  unfold decodeRead
  split <;> rfl

theorem isLoad_decodeWrite (c : Cfg) (a : Nat) (v : Byte) : isLoad (decodeWrite c a v) = false := by
  unfold decodeWrite
  split <;> rfl

/-- On a ready block a read of a bus address decodes to its row of R53, whatever its data field holds, and that
operation answers its effect. -/
theorem readTransaction_of_ready (h : s.Ready) (ha : a < 2 ^ s.cfg.addrBits) (d : Byte)
    (hi : decodeRead s.cfg a = i) :
    decodeWord s.cfg (busWord s.cfg false a d) = .ok i ∧ exec i s = .next (effect i s) := by
  subst hi
  exact ⟨decodeWord_read ha d, exec_of_ready h (decodeRead_wellFormed ha) (isLoad_decodeRead _ _)⟩

/-- On a ready block a write to a bus address decodes to its row of R54, and that operation answers its effect. -/
theorem writeTransaction_of_ready (h : s.Ready) (ha : a < 2 ^ s.cfg.addrBits) {v : Byte}
    (hi : decodeWrite s.cfg a v = i) :
    decodeWord s.cfg (busWord s.cfg true a v) = .ok i ∧ exec i s = .next (effect i s) := by
  subst hi
  exact ⟨decodeWord_write ha v, exec_of_ready h (decodeWrite_wellFormed ha v) (isLoad_decodeWrite _ _ _)⟩

end Transactions

/-- The offset of a low-window address is inside the window (R56). -/
theorem lowOffset_lt {c : Cfg} {a : Nat} (h : region c a = .low) : lowOffset c a < Config.window := by
  obtain ⟨hbase, hend⟩ := range_of_region.1 h
  unfold lowOffset
  omega

/-- Settles O10: the read decodes to `RD_LOW`, whose effect is the reply alone, and both bounds are those of the low
window. -/
theorem rdLowReturnsTheBankedByte : Obligations.RdLowReturnsTheBankedByte := by
  intro s a d h ha hr
  obtain ⟨hdecode, hexec⟩ := readTransaction_of_ready h ha d (decodeRead_low hr)
  exact ⟨hdecode, lowOffset_lt hr, dbankIndex_lt hr s.bank, hexec⟩

/-- Settles O12: the read decodes to `RD_PROG`, whose effect is the reply alone and does not name `BANK`. -/
theorem rdProgReturnsTheProgramByte : Obligations.RdProgReturnsTheProgramByte :=
  fun _ _ d h ha hr => readTransaction_of_ready h ha d (decodeRead_prog hr)

/-- Settles O14: each of the six writes is its row of R54, and its effect is the empty reply. -/
theorem ignoredWritesChangeNothing : Obligations.IgnoredWritesChangeNothing := by
  intro s a v h ha
  refine ⟨fun hr => ?low, fun hr => ?prog, fun hr => ?prnrsv, fun hr => ?unmapped, ?key1, ?key2⟩
  case low => exact writeTransaction_of_ready h ha (decodeWrite_low hr v)
  case prog => exact writeTransaction_of_ready h ha (decodeWrite_prog hr v)
  case prnrsv => exact writeTransaction_of_ready h ha (decodeWrite_prnrsv hr v)
  case unmapped => exact writeTransaction_of_ready h ha (decodeWrite_unmapped hr v)
  case key1 =>
    rintro rfl
    exact writeTransaction_of_ready h ha (decodeWrite_aKey1 h.wf v)
  case key2 =>
    rintro rfl
    exact writeTransaction_of_ready h ha (decodeWrite_aKey2 h.wf v)

end Machine

end Sys2Proof
end

section
/-!
The display buffer's write and constant read (spec/42_display_buffer.md), and the printer-status read, the other
constant (spec/44_peripheral_registers.md R140): the row each register address selects, and the shift cell by cell.
-/

namespace Sys2Proof

/-! ### Rows of the register addresses (R53, R54) -/

section Rows

variable {c : Cfg}

theorem decodeRead_aDisp (hc : c.wf = true) : decodeRead c c.aDisp = .rdDisprdy := by
  rw [decodeRead, (operandIn_iff.mp (region_disp hc)).2]

theorem decodeRead_aPrnstat (hc : c.wf = true) : decodeRead c c.aPrnstat = .rdPrnstat := by
  rw [decodeRead, (operandIn_iff.mp (region_prnstat hc)).2]

theorem decodeWrite_aDisp (hc : c.wf = true) (v : Byte) : decodeWrite c c.aDisp v = .wrDisp v := by
  rw [decodeWrite, (operandIn_iff.mp (region_disp hc)).2]

end Rows

namespace Machine

/-! ### The shift, cell by cell (R110) -/

section Shift

variable (cells : Vector Byte 20) (ch : Byte)

/-- Every cell but the last takes the byte of its right neighbour. -/
theorem shiftIn_getElem_of_lt {i : Nat} (h : i < 19) : (shiftIn cells ch)[i] = cells[i + 1] := by
  have hdrop : i < (cells.toList.drop 1).length := by simpa using h
  have hlist : i < (shiftIn cells ch).toList.length := Vector.length_toList ▸ by omega
  calc (shiftIn cells ch)[i]
      = (shiftIn cells ch).toList[i] := (Vector.getElem_toList hlist).symm
    _ = (cells.toList.drop 1)[i] := by simp only [shiftIn_toList, List.getElem_append_left hdrop]
    _ = cells[i + 1] := by simp

/-- The last cell takes the byte written. -/
theorem shiftIn_getElem_last : (shiftIn cells ch)[19] = ch := by
  have hdrop : (cells.toList.drop 1).length = 19 := by simp
  have hlist : 19 < (shiftIn cells ch).toList.length := by simp
  calc (shiftIn cells ch)[19]
      = (shiftIn cells ch).toList[19] := (Vector.getElem_toList hlist).symm
    _ = ch := by simp only [shiftIn_toList, List.getElem_concat_length hdrop.symm]

end Shift

/-- Settles O17: each read is its row of R53, and its effect is the reply alone. -/
theorem constantReadsReturnTheirConstant : Obligations.ConstantReadsReturnTheirConstant := by
  intro s d h
  have hdisp := (operandIn_iff.mp (region_disp h.wf)).1
  have hprnstat := (operandIn_iff.mp (region_prnstat h.wf)).1
  exact ⟨readTransaction_of_ready h hdisp d (decodeRead_aDisp h.wf),
    readTransaction_of_ready h hprnstat d (decodeRead_aPrnstat h.wf)⟩

/-- Settles O21: the write is its row of R54, and the cells of its effect are the shift of R110. -/
theorem wrDispShiftsByOneCell : Obligations.WrDispShiftsByOneCell := by
  intro s v h
  have ha := (operandIn_iff.mp (region_disp h.wf)).1
  obtain ⟨hdecode, hexec⟩ := writeTransaction_of_ready h ha (decodeWrite_aDisp h.wf v)
  exact ⟨hdecode, shiftIn s.disp v, hexec, fun _ hi => shiftIn_getElem_of_lt s.disp v hi,
    shiftIn_getElem_last s.disp v⟩

end Machine

end Sys2Proof
end

section
/-!
The interrupt lines (spec/43_interrupt_lines.md): what one operation does to a latch is its row of the table R120, and
that row is carried along every sequence. R128 and R129 are read off the table.
-/

namespace Sys2Proof

/-! ### Rows of the two acknowledges (R54) -/

section Rows

variable {c : Cfg}

theorem decodeWrite_aPrnstat (hc : c.wf = true) (v : Byte) : decodeWrite c c.aPrnstat v = .wrFirqack v := by
  rw [decodeWrite, (operandIn_iff.mp (region_prnstat hc)).2]

theorem decodeWrite_aSysin (hc : c.wf = true) (v : Byte) : decodeWrite c c.aSysin v = .wrNmiack v := by
  rw [decodeWrite, (operandIn_iff.mp (region_sysin hc)).2]

end Rows

namespace Machine

/-! ### Sequences of operations -/

section Sequences

variable {s t u : State} {is js : List Instr}

theorem execAll_append_next :
    execAll (is ++ js) s = .next u ↔ ∃ t, execAll is s = .next t ∧ execAll js t = .next u := by
  induction is generalizing s with
  | nil => simp [execAll]
  | cons i is ih =>
    simp only [List.cons_append, execAll_cons_next, ih]
    exact ⟨fun ⟨a, h1, b, h2, h3⟩ => ⟨b, ⟨a, h1, h2⟩, h3⟩, fun ⟨b, ⟨a, h1, h2⟩, h3⟩ => ⟨a, h1, b, h2, h3⟩⟩

theorem execAll_singleton_next {i : Instr} : execAll [i] s = .next t ↔ exec i s = .next t := by
  rw [execAll_cons_next]
  simp [execAll]

theorem execAll_next_live (hp : s.phase = .live) (h : execAll is s = .next t) : t.phase = .live :=
  execAll_induction (P := fun s => s.phase = .live) (fun _ _ _ hp _ h => (exec_next_ready hp h).1.live) is s t hp hp h

/-- A quantity that every effect moves by a table of its own is, along a sequence, the fold of that table. -/
theorem execAll_foldl {α : Type} {q : State → α} {after : α → Instr → α}
    (hq : ∀ i s, q (effect i s) = after (q s) i) (hp : s.phase = .live) (h : execAll is s = .next t) :
    q t = is.foldl after (q s) := by
  induction is generalizing s with
  | nil => cases h; rfl
  | cons i is ih =>
    obtain ⟨u, hu, ht⟩ := execAll_cons_next.mp h
    obtain ⟨-, -, -, rfl⟩ := exec_next_live hp hu
    rw [ih (exec_next_ready hp hu).1.live ht, hq, List.foldl_cons]

/-- An operation that keeps the state it answers can be repeated any number of times. -/
theorem execAll_replicate_succ {i : Instr} (h : exec i s = .next t) (hfix : exec i t = .next t) (n : Nat) :
    execAll (List.replicate (n + 1) i) s = .next t := by
  induction n generalizing s with
  | zero => exact execAll_singleton_next.mpr h
  | succ n ih => exact execAll_cons_next.mpr ⟨t, h, ih hfix⟩

end Sequences

/-! ### One operation on the latches and the coin counter (R120, R152) -/

theorem effect_firq (i : Instr) (s : State) : (effect i s).firq = firqAfter s.firq i := by
  cases i with
  | coin old => cases old <;> rfl
  | service old => cases old <;> rfl
  | assertLine l => cases l <;> rfl
  | _ => rfl

theorem effect_nmi (i : Instr) (s : State) : (effect i s).nmi = nmiAfter s.nmi i := by
  cases i with
  | coin old => cases old <;> rfl
  | service old => cases old <;> rfl
  | assertLine l => cases l <;> rfl
  | _ => rfl

theorem effect_coinCnt (i : Instr) (s : State) : (effect i s).coinCnt = coinCntAfter s.coinCnt i := by
  cases i with
  | coin old => cases old <;> rfl
  | service old => cases old <;> rfl
  | assertLine l => cases l <;> rfl
  | _ => rfl

/-- The operations whose row of the `FIRQ` table is not "unchanged". -/
theorem writer_of_firqAfter_ne {pending : Bool} {i : Instr} (h : firqAfter pending i ≠ pending) :
    i = .tick ∨ i = .assertLine .firq ∨ (∃ v, i = .wrFirqack v) ∨ i = .reset := by
  cases i with
  | tick => exact .inl rfl
  | assertLine l =>
    cases l with
    | firq => exact .inr (.inl rfl)
    | nmi => exact absurd rfl h
  | wrFirqack v => exact .inr (.inr (.inl ⟨v, rfl⟩))
  | reset => exact .inr (.inr (.inr rfl))
  | _ => exact absurd rfl h

/-- The operations whose row of the `NMI` table is not "unchanged". -/
theorem writer_of_nmiAfter_ne {pending : Bool} {i : Instr} (h : nmiAfter pending i ≠ pending) :
    i = .coin true ∨ i = .service true ∨ i = .assertLine .nmi ∨ (∃ v, i = .wrNmiack v) ∨ i = .reset := by
  cases i with
  | coin old =>
    cases old with
    | true => exact .inl rfl
    | false => exact absurd rfl h
  | service old =>
    cases old with
    | true => exact .inr (.inl rfl)
    | false => exact absurd rfl h
  | assertLine l =>
    cases l with
    | firq => exact absurd rfl h
    | nmi => exact .inr (.inr (.inl rfl))
  | wrNmiack v => exact .inr (.inr (.inr (.inl ⟨v, rfl⟩)))
  | reset => exact .inr (.inr (.inr (.inr rfl)))
  | _ => exact absurd rfl h

/-- Without `RESET` the coin counter goes up by the number of coin releases (R152). -/
theorem foldl_coinCntAfter {is : List Instr} (h : .reset ∉ is) (n : Nat) :
    is.foldl coinCntAfter n = n + is.count (.coin true) := by
  induction is generalizing n with
  | nil => rfl
  | cons i is ih =>
    obtain ⟨hi, his⟩ := not_or.mp (mt List.mem_cons.mpr h)
    rw [List.foldl_cons, ih his]
    cases i with
    | coin old => cases old <;> simp [coinCntAfter, Nat.add_assoc, Nat.add_comm]
    | reset => exact absurd rfl hi
    | _ => simp [coinCntAfter]

/-! ### Events that set a latch (R129) -/

section Events

variable {s t : State}

theorem exec_tick_next (h : exec .tick s = .next t) : t.Ready ∧ t = effect .tick s := by
  have hs : s.Ready := (whenLive_eq_next.mp h).1
  obtain ⟨-, -, -, ht⟩ := exec_next_live hs.live h
  exact ⟨(exec_next_ready hs.live h).1, ht⟩

/-- One more tick changes nothing. -/
theorem exec_tick_again (h : exec .tick s = .next t) : exec .tick t = .next t := by
  obtain ⟨ht, rfl⟩ := exec_tick_next h
  exact exec_of_ready ht rfl rfl

/-- An acknowledge straight after a tick clears `FIRQ` and changes nothing else. -/
theorem exec_wrFirqack_after_tick (h : exec .tick s = .next t) (v : Byte) :
    exec (.wrFirqack v) t = .next { t with firq := false } := by
  obtain ⟨ht, rfl⟩ := exec_tick_next h
  exact exec_of_ready ht rfl rfl

/-- Any non-empty sequence of releases leaves a ready block with `NMI` pending and the empty reply: its last one
alone does. -/
theorem execAll_releases {edges : List Instr} (hp : s.phase = .live) (hne : edges ≠ [])
    (hall : ∀ i ∈ edges, i = .coin true ∨ i = .service true) (h : execAll edges s = .next t) :
    t.Ready ∧ t.nmi = true ∧ t.reply = .nothing := by
  rw [← List.dropLast_append_getLast hne] at h
  obtain ⟨u, hu, hlast⟩ := execAll_append_next.mp h
  have hul : u.phase = .live := execAll_next_live hp hu
  have hexec := execAll_singleton_next.mp hlast
  obtain ⟨-, -, -, ht⟩ := exec_next_live hul hexec
  refine ⟨(exec_next_ready hul hexec).1, ?_⟩
  rcases hall _ (List.getLast_mem hne) with hrelease | hrelease <;>
  · rw [ht, hrelease]
    exact ⟨rfl, rfl⟩

/-- An acknowledge after an empty reply clears `NMI` and changes nothing else. -/
theorem exec_wrNmiack_of_reply_nothing (h : s.Ready) (hr : s.reply = .nothing) (v : Byte) :
    exec (.wrNmiack v) s = .next { s with nmi := false } := by
  rw [hr]
  exact exec_of_ready h rfl rfl

end Events

/-! ### The obligations -/

/-- Settles O32: each latch is the fold of its own table, by induction over the sequence. -/
theorem latchesFollowTheTransitionTable : Obligations.LatchesFollowTheTransitionTable :=
  fun _ _ _ hp h => ⟨execAll_foldl effect_firq hp h, execAll_foldl effect_nmi hp h⟩

/-- Settles O33: a latch that changed has a row in its table that is not "unchanged". -/
theorem nothingElseChangesALatch : Obligations.NothingElseChangesALatch := by
  intro s t i hp h
  obtain ⟨-, -, -, rfl⟩ := exec_next_live hp h
  rw [effect_firq, effect_nmi]
  exact ⟨writer_of_firqAfter_ne, writer_of_nmiAfter_ne⟩

/-- Settles O34: a further tick changes nothing, and the last of the releases alone sets `NMI`. -/
theorem latchesDoNotCountEvents : Obligations.LatchesDoNotCountEvents := by
  refine ⟨?ticks, ?ticksThenAck, ?releases⟩
  case ticks => exact fun s t n h => execAll_replicate_succ h (exec_tick_again h) n
  case ticksThenAck =>
    intro s t n v _ h
    exact execAll_append_next.mpr ⟨t, execAll_replicate_succ h (exec_tick_again h) n,
      execAll_singleton_next.mpr (exec_wrFirqack_after_tick h v)⟩
  case releases =>
    intro s t edges v hs hne hall h
    obtain ⟨ht, hnmi, hreply⟩ := execAll_releases hs.live hne hall h
    have hreset : .reset ∉ edges := fun hmem => by simpa using hall _ hmem
    have hcoins : t.coinCnt = s.coinCnt + edges.count (.coin true) :=
      (execAll_foldl effect_coinCnt hs.live h).trans (foldl_coinCntAfter hreset _)
    exact ⟨hnmi, hcoins, exec_wrNmiack_of_reply_nothing ht hreply v⟩

/-- Settles O24: `TICK` needs no decoding, and its effect raises `FIRQ` alone. -/
theorem tickSetsTheFastInterrupt : Obligations.TickSetsTheFastInterrupt :=
  fun _ h => ⟨rfl, rfl, exec_of_ready h rfl rfl⟩

/-- Settles O25: the write is its row of R54, and its effect clears `FIRQ` alone. -/
theorem wrFirqackClearsTheFastInterrupt : Obligations.WrFirqackClearsTheFastInterrupt :=
  fun _ v h => writeTransaction_of_ready h (operandIn_iff.mp (region_prnstat h.wf)).1 (decodeWrite_aPrnstat h.wf v)

/-- Settles O26: the write is its row of R54, and its effect clears `NMI` alone. -/
theorem wrNmiackClearsTheNonMaskableInterrupt : Obligations.WrNmiackClearsTheNonMaskableInterrupt :=
  fun _ v h => writeTransaction_of_ready h (operandIn_iff.mp (region_sysin h.wf)).1 (decodeWrite_aSysin h.wf v)

end Machine

end Sys2Proof
end

section
/-!
The encoding in both directions (spec/30_encoding.md): the region function by its conditions, the two decode tables as
functions of the region, and the encoder as their inverse.
-/

namespace Sys2Proof

/-! ### The region of an address (R52) -/

section Regions

variable {c : Cfg} {a : Nat}

/-- In a well-formed configuration an address is of a region exactly where an entry of that region answers. -/
theorem region_eq_iff (hc : c.wf = true) {r : Region} (hr : r ≠ .unmapped) :
    region c a = r ↔ ∃ e ∈ c.addressMap, e.region = r ∧ e.covers a = true := by
  constructor
  · exact fun h => entry_of_region h hr
  · rintro ⟨e, he, rfl, ha⟩
    exact region_of_entry hc he ha

theorem MapEntry.single_covers_iff {r : Region} {b : Nat} : (⟨r, b, 1⟩ : MapEntry).covers a = true ↔ a = b := by
  simp only [MapEntry.covers_iff]
  omega

theorem region_low_iff (hc : c.wf = true) :
    region c a = .low ↔ c.lowBase ≤ a ∧ a < c.lowBase + Config.window := by
  simp [region_eq_iff hc, Cfg.addressMap, MapEntry.covers_iff]

theorem region_wram_iff (hc : c.wf = true) :
    region c a = .wram ↔ c.wramBase ≤ a ∧ a < c.wramBase + c.wramSize := by
  simp [region_eq_iff hc, Cfg.addressMap, MapEntry.covers_iff]

theorem region_prog_iff (hc : c.wf = true) :
    region c a = .prog ↔ c.progBase ≤ a ∧ a < c.progBase + c.progSize := by
  simp [region_eq_iff hc, Cfg.addressMap, MapEntry.covers_iff]

theorem region_prnrsv_iff (hc : c.wf = true) : region c a = .prnrsv ↔ a ∈ c.prnReserved := by
  simp [region_eq_iff hc, Cfg.addressMap, MapEntry.single_covers_iff]

theorem region_prnstat_iff (hc : c.wf = true) : region c a = .prnstat ↔ a = c.aPrnstat := by
  simp [region_eq_iff hc, Cfg.addressMap, MapEntry.single_covers_iff]

theorem region_sysin_iff (hc : c.wf = true) : region c a = .sysin ↔ a = c.aSysin := by
  simp [region_eq_iff hc, Cfg.addressMap, MapEntry.single_covers_iff]

theorem region_disp_iff (hc : c.wf = true) : region c a = .disp ↔ a = c.aDisp := by
  simp [region_eq_iff hc, Cfg.addressMap, MapEntry.single_covers_iff]

theorem region_key1_iff (hc : c.wf = true) : region c a = .key1 ↔ a = c.aKey1 := by
  simp [region_eq_iff hc, Cfg.addressMap, MapEntry.single_covers_iff]

theorem region_key2_iff (hc : c.wf = true) : region c a = .key2 ↔ a = c.aKey2 := by
  simp [region_eq_iff hc, Cfg.addressMap, MapEntry.single_covers_iff]

theorem region_dipsw_iff (hc : c.wf = true) : region c a = .dipsw ↔ a = c.aDipsw := by
  simp [region_eq_iff hc, Cfg.addressMap, MapEntry.single_covers_iff]

theorem region_toneOn_iff (hc : c.wf = true) : region c a = .toneOn ↔ a = c.aToneOn := by
  simp [region_eq_iff hc, Cfg.addressMap, MapEntry.single_covers_iff]

theorem region_toneOff_iff (hc : c.wf = true) : region c a = .toneOff ↔ a = c.aToneOff := by
  simp [region_eq_iff hc, Cfg.addressMap, MapEntry.single_covers_iff]

theorem region_banksel_iff (hc : c.wf = true) : region c a = .banksel ↔ a = c.aBanksel := by
  simp [region_eq_iff hc, Cfg.addressMap, MapEntry.single_covers_iff]

/-- `UNMAPPED` is the region of the addresses outside the three ranges, the nine registers and the reserved set: the
addresses of no other region. -/
theorem region_unmapped_iff_outside (hc : c.wf = true) :
    region c a = .unmapped ↔
      ¬ (c.lowBase ≤ a ∧ a < c.lowBase + Config.window) ∧ ¬ (c.wramBase ≤ a ∧ a < c.wramBase + c.wramSize) ∧
      ¬ (c.progBase ≤ a ∧ a < c.progBase + c.progSize) ∧
      a ∉ [c.aPrnstat, c.aSysin, c.aDisp, c.aKey1, c.aKey2, c.aDipsw, c.aToneOn, c.aToneOff, c.aBanksel] ∧
      a ∉ c.prnReserved := by
  rw [← region_low_iff hc, ← region_wram_iff hc, ← region_prog_iff hc, ← region_prnrsv_iff hc]
  simp only [List.mem_cons, List.not_mem_nil, or_false, ← region_prnstat_iff hc, ← region_sysin_iff hc,
    ← region_disp_iff hc, ← region_key1_iff hc, ← region_key2_iff hc, ← region_dipsw_iff hc, ← region_toneOn_iff hc,
    ← region_toneOff_iff hc, ← region_banksel_iff hc]
  cases region c a <;> decide

end Regions

/-! ### The decode tables as functions of the region (R53, R54) -/

/-- The row of R53 for a region. -/
def readRow (r : Region) (addr : Nat) : Instr :=
  match r with
  | .low => .rdLow addr
  | .wram => .rdWram addr
  | .prog => .rdProg addr
  | .prnrsv => .rdPrnrsv addr
  | .unmapped => .rdUnmapped addr
  | .banksel => .rdBanksel
  | .disp => .rdDisprdy
  | .prnstat => .rdPrnstat
  | .sysin => .rdSysin
  | .key1 => .rdKey1
  | .key2 => .rdKey2
  | .dipsw => .rdDipsw
  | .toneOn => .rdToneOn
  | .toneOff => .rdToneOff

/-- The row of R54 for a region. -/
def writeRow (r : Region) (addr : Nat) (data : Byte) : Instr :=
  match r with
  | .low => .wrLow addr data
  | .wram => .wrWram addr data
  | .prog => .wrProg addr data
  | .prnrsv => .wrPrnrsv addr data
  | .unmapped => .wrUnmapped addr data
  | .banksel => .wrBanksel data
  | .disp => .wrDisp data
  | .prnstat => .wrFirqack data
  | .sysin => .wrNmiack data
  | .key1 => .wrKey1 data
  | .key2 => .wrKey2 data
  | .dipsw => .wrOutctl data
  | .toneOn => .wrToneOn data
  | .toneOff => .wrToneOff data

/-- The address at which an operation of a row is presented: the register's own, or the operand. -/
def Cfg.rowAddr (c : Cfg) (r : Region) (addr : Nat) : Nat :=
  match r with
  | .banksel => c.aBanksel
  | .disp => c.aDisp
  | .prnstat => c.aPrnstat
  | .sysin => c.aSysin
  | .key1 => c.aKey1
  | .key2 => c.aKey2
  | .dipsw => c.aDipsw
  | .toneOn => c.aToneOn
  | .toneOff => c.aToneOff
  | _ => addr

section Tables

variable {c : Cfg} {a : Nat} {r : Region}

theorem decodeRead_of_region (h : region c a = r) : decodeRead c a = readRow r a := by
  rw [decodeRead, h]
  cases r <;> rfl

theorem decodeWrite_of_region (h : region c a = r) (d : Byte) : decodeWrite c a d = writeRow r a d := by
  rw [decodeWrite, h]
  cases r <;> rfl

/-- A read of a bus address is the row of its region, whatever the data field holds. -/
theorem decodeWord_readRow (ha : a < 2 ^ c.addrBits) (d : Byte) (h : region c a = r) :
    decodeWord c (busWord c false a d) = .ok (readRow r a) := by
  rw [decodeWord_read ha, decodeRead_of_region h]

/-- A write to a bus address is the row of its region, with its data byte. -/
theorem decodeWord_writeRow (ha : a < 2 ^ c.addrBits) (d : Byte) (h : region c a = r) :
    decodeWord c (busWord c true a d) = .ok (writeRow r a d) := by
  rw [decodeWord_write ha, decodeWrite_of_region h]

theorem decodeEvent_readWord_row (h : c.operandIn a r = true) : decodeEvent c (readWord c a) = .ok (readRow r a) := by
  rw [decodeEvent_readWord h, decodeRead_of_region (operandIn_iff.mp h).2]

theorem decodeEvent_writeWord_row (h : c.operandIn a r = true) (d : Byte) :
    decodeEvent c (writeWord c a d) = .ok (writeRow r a d) := by
  rw [decodeEvent_writeWord h, decodeWrite_of_region (operandIn_iff.mp h).2]

theorem isBusRead_readRow (r : Region) (a : Nat) : Machine.isBusRead (readRow r a) = true := by
  cases r <;> rfl

theorem isBusWrite_writeRow (r : Region) (a : Nat) (d : Byte) : Machine.isBusWrite (writeRow r a d) = true := by
  cases r <;> rfl

/-! ### The encoder on the rows -/

theorem encode_readRow (c : Cfg) (r : Region) (a : Nat) : encode c (readRow r a) = readWord c (c.rowAddr r a) := by
  cases r <;> rfl

theorem encode_writeRow (c : Cfg) (r : Region) (a : Nat) (d : Byte) :
    encode c (writeRow r a d) = writeWord c (c.rowAddr r a) d := by
  cases r <;> rfl

/-- The only address of a register's region is the register's, so a row is presented at the address it came from. -/
theorem rowAddr_region (hc : c.wf = true) (h : region c a = r) : c.rowAddr r a = a := by
  cases r with
  | banksel => exact ((region_banksel_iff hc).mp h).symm
  | disp => exact ((region_disp_iff hc).mp h).symm
  | prnstat => exact ((region_prnstat_iff hc).mp h).symm
  | sysin => exact ((region_sysin_iff hc).mp h).symm
  | key1 => exact ((region_key1_iff hc).mp h).symm
  | key2 => exact ((region_key2_iff hc).mp h).symm
  | dipsw => exact ((region_dipsw_iff hc).mp h).symm
  | toneOn => exact ((region_toneOn_iff hc).mp h).symm
  | toneOff => exact ((region_toneOff_iff hc).mp h).symm
  | _ => rfl

/-! ### Transaction words -/

/-- A word that decodes is a read or a write of the address it holds, and is no wider than a transaction word. -/
theorem decodeWord_ok {w : Nat} {i : Instr} (h : decodeWord c w = .ok i) :
    w < 2 ^ (c.addrBits + 9) ∧
    (wordWrite c w = false ∧ i = decodeRead c (wordAddr c w) ∨
      wordWrite c w = true ∧ i = decodeWrite c (wordAddr c w) (wordData w)) := by
  unfold decodeWord at h
  split at h
  · split at h
    · exact ⟨‹_›, .inr ⟨‹_›, (Except.ok.inj h).symm⟩⟩
    · exact ⟨‹_›, .inl ⟨Bool.eq_false_iff.mpr ‹_›, (Except.ok.inj h).symm⟩⟩
  · cases h

theorem decodeWord_wellFormed {w : Nat} {i : Instr} (h : decodeWord c w = .ok i) : i.wellFormed c = true := by
  obtain ⟨-, ⟨-, rfl⟩ | ⟨-, rfl⟩⟩ := decodeWord_ok h
  · exact decodeRead_wellFormed (wordAddr_lt c w)
  · exact decodeWrite_wellFormed (wordAddr_lt c w) _

/-- No transaction word decodes to a signal operation (R55). -/
theorem decodeWord_isBus {w : Nat} {i : Instr} (h : decodeWord c w = .ok i) :
    Machine.isBusRead i = true ∨ Machine.isBusWrite i = true := by
  obtain ⟨-, ⟨-, rfl⟩ | ⟨-, rfl⟩⟩ := decodeWord_ok h
  · exact .inl (decodeRead_of_region rfl ▸ isBusRead_readRow _ _)
  · exact .inr (decodeWrite_of_region rfl _ ▸ isBusWrite_writeRow _ _ _)

theorem decodeWord_of_lt {w : Nat} (h : w < 2 ^ (c.addrBits + 9)) : ∃ i, decodeWord c w = .ok i := by
  rw [decodeWord, if_pos h]
  split
  · exact ⟨_, rfl⟩
  · exact ⟨_, rfl⟩

theorem decodeWord_of_ge {w : Nat} (h : 2 ^ (c.addrBits + 9) ≤ w) : decodeWord c w = .error .wordTooWide :=
  if_neg (Nat.not_lt.mpr h)

/-- Clearing the data field of a word leaves the address and the access kind. -/
theorem busWord_clear_data (c : Cfg) (b : Bool) (a : Nat) (d : Byte) :
    busWord c b a d - busWord c b a d % 256 = busWord c b a 0 := by
  have hd := d.isLt
  have h0 : (0 : Byte).toNat = 0 := rfl
  simp only [busWord, h0]
  omega

end Tables

/-! ### The obligations -/

/-- Settles O5: each condition is that of the one entry or family of entries of its region. -/
theorem regionIsTheConditionThatHolds : Obligations.RegionIsTheConditionThatHolds := by
  intro c a hc
  obtain ⟨-, -, hwram, hprog, -⟩ := Cfg.wf_iff.mp hc
  have hlast (base size : Nat) (hs : 1 ≤ size) : a ≤ base + size - 1 ↔ a < base + size := by omega
  rw [hlast _ _ (by decide : 1 ≤ 24576), hlast _ _ hwram, hlast _ _ hprog]
  exact ⟨region_low_iff hc, region_wram_iff hc, region_prnstat_iff hc, region_sysin_iff hc, region_disp_iff hc,
    region_key1_iff hc, region_key2_iff hc, region_dipsw_iff hc, region_toneOn_iff hc, region_toneOff_iff hc,
    region_banksel_iff hc, region_prnrsv_iff hc, region_prog_iff hc, region_unmapped_iff_outside hc⟩

/-- Settles O1: each bus operation is the row of the region in which its word's address lies; a signal is not
encoded. -/
theorem decodeOfEncodeIsTheOperation : Obligations.DecodeOfEncodeIsTheOperation := by
  intro c i hc hi
  cases i with
  | rdLow a => exact decodeEvent_readWord_row hi
  | rdWram a => exact decodeEvent_readWord_row hi
  | rdProg a => exact decodeEvent_readWord_row hi
  | rdPrnrsv a => exact decodeEvent_readWord_row hi
  | rdUnmapped a => exact decodeEvent_readWord_row hi
  | rdBanksel => exact decodeEvent_readWord_row (region_banksel hc)
  | rdDisprdy => exact decodeEvent_readWord_row (region_disp hc)
  | rdPrnstat => exact decodeEvent_readWord_row (region_prnstat hc)
  | rdSysin => exact decodeEvent_readWord_row (region_sysin hc)
  | rdKey1 => exact decodeEvent_readWord_row (region_key1 hc)
  | rdKey2 => exact decodeEvent_readWord_row (region_key2 hc)
  | rdDipsw => exact decodeEvent_readWord_row (region_dipsw hc)
  | rdToneOn => exact decodeEvent_readWord_row (region_toneOn hc)
  | rdToneOff => exact decodeEvent_readWord_row (region_toneOff hc)
  | wrLow a d => exact decodeEvent_writeWord_row hi d
  | wrWram a d => exact decodeEvent_writeWord_row hi d
  | wrProg a d => exact decodeEvent_writeWord_row hi d
  | wrPrnrsv a d => exact decodeEvent_writeWord_row hi d
  | wrUnmapped a d => exact decodeEvent_writeWord_row hi d
  | wrBanksel d => exact decodeEvent_writeWord_row (region_banksel hc) d
  | wrDisp d => exact decodeEvent_writeWord_row (region_disp hc) d
  | wrFirqack d => exact decodeEvent_writeWord_row (region_prnstat hc) d
  | wrNmiack d => exact decodeEvent_writeWord_row (region_sysin hc) d
  | wrKey1 d => exact decodeEvent_writeWord_row (region_key1 hc) d
  | wrKey2 d => exact decodeEvent_writeWord_row (region_key2 hc) d
  | wrOutctl d => exact decodeEvent_writeWord_row (region_dipsw hc) d
  | wrToneOn d => exact decodeEvent_writeWord_row (region_toneOn hc) d
  | wrToneOff d => exact decodeEvent_writeWord_row (region_toneOff hc) d
  | _ => rfl

/-- Settles O2: a word is the packing of its own fields, and the encoder packs a row at the address it came from. -/
theorem encodeOfDecodeIsTheWord : Obligations.EncodeOfDecodeIsTheWord := by
  intro c w i hc h
  refine ⟨decodeWord_wellFormed h, ?_⟩
  obtain ⟨hw, ⟨hrw, rfl⟩ | ⟨hrw, rfl⟩⟩ := decodeWord_ok h
  · have hfields := busWord_fields hw
    rw [decodeRead_of_region rfl]
    refine .inl ⟨isBusRead_readRow _ _, ?_⟩
    rw [encode_readRow, rowAddr_region hc rfl, readWord, ← busWord_clear_data c false _ (wordData w), ← hrw, hfields]
  · have hfields := busWord_fields hw
    rw [decodeWrite_of_region rfl]
    refine .inr ⟨isBusWrite_writeRow _ _ _, ?_⟩
    rw [encode_writeRow, rowAddr_region hc rfl, writeWord, ← hrw, hfields]

/-- Settles O3: decode branches on the width of the number alone. -/
theorem everyTransactionWordDecodes : Obligations.EveryTransactionWordDecodes := by
  intro c w
  rw [show 1 + c.addrBits + 8 = c.addrBits + 9 by omega]
  refine ⟨fun h => ?_, decodeWord_of_ge⟩
  obtain ⟨i, hi⟩ := decodeWord_of_lt h
  exact ⟨i, hi, decodeWord_wellFormed hi⟩

/-- Settles O4: each word is evaluated. -/
theorem sampleWordsDecode : Obligations.SampleWordsDecode :=
  ⟨rfl, rfl, rfl, rfl, rfl, rfl, rfl, rfl, rfl, rfl⟩

/-- Settles O6: one row lemma, at each of the fourteen regions. -/
theorem readDecodeFollowsTheTable : Obligations.ReadDecodeFollowsTheTable := by
  intro c a d ha
  have hrow {r : Region} : region c a = r → decodeWord c (busWord c false a d) = .ok (readRow r a) :=
    decodeWord_readRow ha d
  exact ⟨hrow, hrow, hrow, hrow, hrow, hrow, hrow, hrow, hrow, hrow, hrow, hrow, hrow, hrow⟩

/-- Settles O7: one row lemma, at each of the fourteen regions. -/
theorem writeDecodeFollowsTheTable : Obligations.WriteDecodeFollowsTheTable := by
  intro c a d ha
  have hrow {r : Region} : region c a = r → decodeWord c (busWord c true a d) = .ok (writeRow r a d) :=
    decodeWord_writeRow ha d
  exact ⟨hrow, hrow, hrow, hrow, hrow, hrow, hrow, hrow, hrow, hrow, hrow, hrow, hrow, hrow⟩

end Sys2Proof
end

section
/-!
What one operation does to one field, and what it reads: the rows of the field tables of Safety.lean, the frames of
spec/10_state.md section 1, and the two non-interference laws. Then the rules of the whole machine that follow for every
operation that answers.
-/

namespace Sys2Proof.Machine

/-! ### When an operation answers -/

/-- An operation other than `LOAD` that answers a next state runs on a ready block and answers its effect. -/
theorem exec_next_of_not_load {s t : State} {i : Instr} (hl : isLoad i = false) (h : exec i s = .next t) :
    s.Ready ∧ i.wellFormed s.cfg = true ∧ t = effect i s := by
  have hp : s.phase = .live := by
    cases hp : s.phase with
    | live => rfl
    | unloaded =>
      obtain ⟨p, d, rfl, -⟩ := exec_next_unloaded hp h
      cases hl
  obtain ⟨hr, hi, -, ht⟩ := exec_next_live hp h
  exact ⟨hr, hi, ht⟩

theorem isLoad_of_isBusRead {i : Instr} (h : isBusRead i = true) : isLoad i = false := by
  cases i with
  | load p d => cases h
  | _ => rfl

theorem isLoad_of_isBusWrite {i : Instr} (h : isBusWrite i = true) : isLoad i = false := by
  cases i with
  | load p d => cases h
  | _ => rfl

/-! ### Fields with a table of their own -/

theorem effect_toneEn (i : Instr) (s : State) : (effect i s).toneEn = toneAfter s.toneEn i := by
  cases i with
  | coin old => cases old <;> rfl
  | service old => cases old <;> rfl
  | assertLine l => cases l <;> rfl
  | _ => rfl

theorem toneAfter_of_ne {on : Bool} {i : Instr} (h : ∀ v, i ≠ .wrToneOn v ∧ i ≠ .wrToneOff v) (hr : i ≠ .reset) :
    toneAfter on i = on := by
  cases i with
  | wrToneOn v => exact absurd rfl (h v).1
  | wrToneOff v => exact absurd rfl (h v).2
  | reset => exact absurd rfl hr
  | _ => rfl

theorem coinCntAfter_of_ne {n : Nat} {i : Instr} (h : i ≠ .coin true) (hr : i ≠ .reset) : coinCntAfter n i = n := by
  cases i with
  | coin old =>
    cases old with
    | true => exact absurd rfl h
    | false => rfl
  | reset => exact absurd rfl hr
  | _ => rfl

theorem firqAfter_of_ne {p : Bool} {i : Instr} (htick : i ≠ .tick) (hassert : i ≠ .assertLine .firq)
    (hack : ∀ v, i ≠ .wrFirqack v) (hr : i ≠ .reset) : firqAfter p i = p := by
  by_contra hne
  rcases writer_of_firqAfter_ne hne with h | h | ⟨v, h⟩ | h
  · exact htick h
  · exact hassert h
  · exact hack v h
  · exact hr h

theorem nmiAfter_of_ne {p : Bool} {i : Instr} (hcoin : i ≠ .coin true) (hservice : i ≠ .service true)
    (hassert : i ≠ .assertLine .nmi) (hack : ∀ v, i ≠ .wrNmiack v) (hr : i ≠ .reset) : nmiAfter p i = p := by
  by_contra hne
  rcases writer_of_nmiAfter_ne hne with h | h | h | ⟨v, h⟩ | h
  · exact hcoin h
  · exact hservice h
  · exact hassert h
  · exact hack v h
  · exact hr h

/-! ### Fields that one write and `RESET` change -/

section Frames

variable {s : State} {i : Instr}

theorem effect_outctl_of_ne (h : ∀ v, i ≠ .wrOutctl v) (hr : i ≠ .reset) :
    (effect i s).lockout = s.lockout ∧ (effect i s).cut1 = s.cut1 ∧ (effect i s).cut2 = s.cut2 := by
  cases i with
  | wrOutctl v => exact absurd rfl (h v)
  | reset => exact absurd rfl hr
  | coin old => cases old <;> exact ⟨rfl, rfl, rfl⟩
  | service old => cases old <;> exact ⟨rfl, rfl, rfl⟩
  | assertLine l => cases l <;> exact ⟨rfl, rfl, rfl⟩
  | _ => exact ⟨rfl, rfl, rfl⟩

theorem effect_bank_of_ne (h : ∀ v, i ≠ .wrBanksel v) (hr : i ≠ .reset) : (effect i s).bank = s.bank := by
  cases i with
  | wrBanksel v => exact absurd rfl (h v)
  | reset => exact absurd rfl hr
  | coin old => cases old <;> rfl
  | service old => cases old <;> rfl
  | assertLine l => cases l <;> rfl
  | _ => rfl

theorem effect_disp_of_ne (h : ∀ v, i ≠ .wrDisp v) (hr : i ≠ .reset) : (effect i s).disp = s.disp := by
  cases i with
  | wrDisp v => exact absurd rfl (h v)
  | reset => exact absurd rfl hr
  | coin old => cases old <;> rfl
  | service old => cases old <;> rfl
  | assertLine l => cases l <;> rfl
  | _ => rfl

end Frames

/-! ### Working memory -/

/-- `WRAM` after an operation, from `WRAM` before it (R14, R75). -/
def wramAfter (c : Cfg) (m : Memory) : Instr → Memory
  | .wrWram addr data => m.write (wramIndex c addr) data
  | .reset => []
  | _ => m

theorem effect_wram (i : Instr) (s : State) : (effect i s).wram = wramAfter s.cfg s.wram i := by
  cases i with
  | coin old => cases old <;> rfl
  | service old => cases old <;> rfl
  | assertLine l => cases l <;> rfl
  | _ => rfl

section Wram

variable {c : Cfg} {m : Memory} {i : Instr}

theorem wramAfter_of_ne (h : ∀ a v, i ≠ .wrWram a v) (hr : i ≠ .reset) : wramAfter c m i = m := by
  cases i with
  | wrWram a v => exact absurd rfl (h a v)
  | reset => exact absurd rfl hr
  | _ => rfl

theorem Memory.wf_nil : Memory.WF [] := ⟨List.Pairwise.nil, by simp⟩

theorem wramAfter_wf (h : Memory.WF m) : Memory.WF (wramAfter c m i) := by
  cases i with
  | wrWram a v => exact Memory.write_wf h _ v
  | reset => exact Memory.wf_nil
  | _ => exact h

theorem wramAfter_within (hi : i.wellFormed c = true) (h : Memory.Within m c.wramSize) :
    Memory.Within (wramAfter c m i) c.wramSize := by
  cases i with
  | wrWram a v => exact Memory.write_within v h (wramIndex_lt (operandIn_iff.mp hi).2)
  | reset => exact fun x hx => nomatch hx
  | _ => exact h

/-- Each byte of `WRAM` follows its own table. -/
theorem wramAfter_read (h : Memory.WF m) (k : Nat) :
    (wramAfter c m i).read k = wramByteAfter c k (m.read k) i := by
  cases i with
  | wrWram a v =>
    rw [wramAfter, Memory.read_write h, wramByteAfter, wramIndex]
    simp only [eq_comm]
  | _ => rfl

end Wram

/-- A second write of one byte to one place changes nothing more. -/
theorem Memory.write_write {m : Memory} (h : Memory.WF m) (a : Nat) (v : Byte) :
    (m.write a v).write a v = m.write a v :=
  Memory.eq_of_read (Memory.write_wf (Memory.write_wf h a v) a v) (Memory.write_wf h a v) fun k => by
    rw [Memory.read_write (Memory.write_wf h a v)]
    split
    · rw [Memory.read_write h, if_pos ‹_›]
    · rfl

/-! ### What reads and writes leave -/

section Reads

variable {s t : State} {i : Instr}

/-- A bus read, `OBS` or `RENDER` changes no field but the model's own two. -/
theorem effect_of_read (h : isBusRead i = true ∨ (∃ l, i = .obs l) ∨ i = .render) :
    effect i s = { s with reply := (effect i s).reply, draws := (effect i s).draws } := by
  rcases h with h | ⟨l, rfl⟩ | rfl
  · cases i <;> cases h <;> rfl
  · rfl
  · rfl

/-- Every other operation answers the empty reply and draws nothing. -/
theorem effect_of_not_read (hb : isBusRead i = false) (ho : ∀ l, i ≠ .obs l) (hr : i ≠ .render)
    (hl : isLoad i = false) : (effect i s).reply = .nothing ∧ (effect i s).draws = s.draws := by
  cases i with
  | obs l => exact absurd rfl (ho l)
  | render => exact absurd rfl hr
  | load p d => cases hl
  | coin old => cases old <;> exact ⟨rfl, rfl⟩
  | service old => cases old <;> exact ⟨rfl, rfl⟩
  | assertLine l => cases l <;> exact ⟨rfl, rfl⟩
  | wrLow | wrWram | wrProg | wrPrnrsv | wrUnmapped | wrBanksel | wrDisp | wrFirqack | wrNmiack | wrKey1 | wrKey2
  | wrOutctl | wrToneOn | wrToneOff | tick | reset => exact ⟨rfl, rfl⟩
  | _ => cases hb

/-- A bus write other than `WR_DISP`, done twice, is done once. -/
theorem effect_effect_of_write (hm : Memory.WF s.wram) (hw : isBusWrite i = true) (hd : ∀ v, i ≠ .wrDisp v) :
    effect i (effect i s) = effect i s := by
  cases i with
  | wrDisp v => exact absurd rfl (hd v)
  | wrWram a v =>
    have hwrite := Memory.write_write hm (wramIndex s.cfg a) v
    simp only [effect, State.answer, hwrite]
  | wrLow | wrProg | wrPrnrsv | wrUnmapped | wrBanksel | wrFirqack | wrNmiack | wrKey1 | wrKey2 | wrOutctl | wrToneOn
  | wrToneOff => rfl
  | _ => cases hw

end Reads

/-! ### What an operation does not see -/

/-- An effect sees of the data bank only what lies below index 98304, and keeps it. -/
theorem effect_with_dbank {s : State} {m : Memory} {i : Instr} (hi : i.wellFormed s.cfg = true)
    (hm : ∀ k, k < 98304 → Memory.read m k = s.dbank.read k) (hl : isLoad i = false) :
    effect i { s with dbank := m } = { effect i s with dbank := m } := by
  cases i with
  | rdLow a =>
    have hread := hm _ (dbankIndex_lt (operandIn_iff.mp hi).2 s.bank)
    simp only [effect, State.answer, hread]
  | coin old => cases old <;> rfl
  | service old => cases old <;> rfl
  | assertLine l => cases l <;> rfl
  | _ => rfl

/-- The state without the five output-only fields: what an effect can see (10_state.md section 5). -/
def State.maskOutputs (s : State) : State :=
  { s with lockout := false, cut1 := false, cut2 := false, toneEn := false, coinCnt := 0 }

/-- An effect sees none of the output-only fields. -/
theorem effect_maskOutputs (i : Instr) (s : State) :
    (effect i s).maskOutputs = (effect i s.maskOutputs).maskOutputs := by
  cases i with
  | coin old => cases old <;> rfl
  | service old => cases old <;> rfl
  | assertLine l => cases l <;> rfl
  | _ => rfl

theorem State.fields_of_maskOutputs_eq {s t : State} (h : s.maskOutputs = t.maskOutputs) :
    s.reply = t.reply ∧ s.firq = t.firq ∧ s.nmi = t.nmi ∧ s.bank = t.bank ∧ s.disp = t.disp ∧ s.wram = t.wram ∧
    s.prog = t.prog ∧ s.dbank = t.dbank := by
  simp only [State.maskOutputs, State.mk.injEq] at h
  simp only [h, and_self]

/-- The reads of memory and the two constant reads see the configuration, the images, `WRAM` and `BANK` alone. -/
theorem effect_reply_of_memory_read {s s' : State} {i : Instr} (hcfg : s.cfg = s'.cfg) (hprog : s.prog = s'.prog)
    (hdbank : s.dbank = s'.dbank) (hwram : s.wram = s'.wram) (hbank : s.bank = s'.bank)
    (hi : (∃ a, i = .rdLow a ∨ i = .rdWram a ∨ i = .rdProg a) ∨ i = .rdPrnstat ∨ i = .rdDisprdy) :
    (effect i s).reply = (effect i s').reply := by
  rcases hi with ⟨a, rfl | rfl | rfl⟩ | rfl | rfl
  · simp only [effect, State.answer_reply, hcfg, hdbank, hbank]
  · simp only [effect, State.answer_reply, hcfg, hwram]
  · simp only [effect, State.answer_reply, hcfg, hprog]
  · rfl
  · rfl

/-! ### Refusals -/

/-- Under an ill-formed configuration nothing runs (R3). -/
theorem exec_of_illFormed {s : State} (h : s.cfg.wf = false) (i : Instr) : exec i s = .refused .configIllFormed := by
  cases i with
  | load p d => simp [exec, execLoad, h]
  | _ => exact whenLive_of_illFormed h _

/-- Before `LOAD` nothing else runs (R184, R185). -/
theorem exec_of_unloaded {s : State} {i : Instr} (hc : s.cfg.wf = true) (hp : s.phase = .unloaded)
    (hl : isLoad i = false) : exec i s = .refused .noBlock := by
  cases i with
  | load p d => cases hl
  | _ => exact whenLive_of_unloaded hc hp _

/-- An operand of another region is refused (log entry 14). -/
theorem exec_of_not_wellFormed {s : State} {i : Instr} (hs : s.Ready) (hi : i.wellFormed s.cfg = false) :
    exec i s = .refused .operandOutsideRegion := by
  cases i with
  | rdLow | rdWram | rdProg | rdPrnrsv | rdUnmapped | wrLow | wrWram | wrProg | wrPrnrsv | wrUnmapped =>
    exact (whenLive_of_ready hs _).trans (atRegion_of_not hi _)
  | _ => cases hi

/-! ### Events that come together (60_exceptions.md section 3) -/

/-- A `TICK`, `COIN` or `SERVICE` edge, which no region and no phase but the live one bears on. -/
theorem event_edge_runs {i : Instr} (h : i = .tick ∨ (∃ b, i = .coin b) ∨ ∃ b, i = .service b) (c : Cfg) :
    i.wellFormed c = true ∧ isLoad i = false := by
  rcases h with rfl | ⟨b, rfl⟩ | ⟨b, rfl⟩ <;> exact ⟨rfl, rfl⟩

/-- Such an edge only adds: it sets a latch or leaves it, and adds a fixed number to the counter. -/
theorem effect_event_edge {i : Instr} (h : i = .tick ∨ (∃ b, i = .coin b) ∨ ∃ b, i = .service b) (s : State) :
    effect i s = { s with
      firq := s.firq || decide (i = .tick)
      nmi := s.nmi || decide (i = .coin true ∨ i = .service true)
      coinCnt := s.coinCnt + (if i = .coin true then 1 else 0)
      reply := .nothing } := by
  rcases h with rfl | ⟨b, rfl⟩ | ⟨b, rfl⟩
  · simp [effect, State.answer, State.raiseLine]
  · cases b <;> simp [effect, State.answer, State.raiseLine]
  · cases b <;> simp [effect, State.answer, State.raiseLine]

theorem effect_event_edge_comm {i j : Instr} (hi : i = .tick ∨ (∃ b, i = .coin b) ∨ ∃ b, i = .service b)
    (hj : j = .tick ∨ (∃ b, j = .coin b) ∨ ∃ b, j = .service b) (s : State) :
    effect j (effect i s) = effect i (effect j s) := by
  simp only [effect_event_edge hi, effect_event_edge hj]
  rw [Bool.or_right_comm, Bool.or_right_comm s.nmi, Nat.add_right_comm]

/-! ### The obligations -/

/-- Settles O20: a low-window read is the only operation that sees the data bank, at an index below 98304. -/
theorem chunksFourAndFiveAreUnreachable : Obligations.ChunksFourAndFiveAreUnreachable := by
  intro s t m i hm h hp
  obtain ⟨hr, hi, hl, rfl⟩ := exec_next_live hp h
  have hr' : ({ s with dbank := m } : State).Ready := ⟨hr.wf, hr.live⟩
  rw [exec_of_ready hr' hi hl, effect_with_dbank hi hm hl]

/-- Settles O35: both orders run, and the effects commute. -/
theorem simultaneousEventsCommute : Obligations.SimultaneousEventsCommute := by
  intro s i j hs hi hj
  obtain ⟨hiw, hil⟩ := event_edge_runs hi s.cfg
  obtain ⟨hjw, hjl⟩ := event_edge_runs hj s.cfg
  have hij : execAll [i, j] s = .next (effect j (effect i s)) := execAll_of_ready hs (by simp [*])
  have hji : execAll [j, i] s = .next (effect i (effect j s)) := execAll_of_ready hs (by simp [*])
  rw [hij, hji, effect_event_edge_comm hi hj]

/-- Settles O40: field by field, the frame of each operation that is not one of the field's writers. -/
theorem eachFieldHasItsOwnWriters : Obligations.EachFieldHasItsOwnWriters := by
  intro s t i hp h hr
  obtain ⟨-, -, -, rfl⟩ := exec_next_live hp h
  rw [effect_toneEn, effect_coinCnt, effect_firq, effect_nmi, effect_wram]
  exact ⟨fun hne => effect_outctl_of_ne hne hr, fun hne => toneAfter_of_ne hne hr, fun hne => coinCntAfter_of_ne hne hr,
    fun htick hassert hack => firqAfter_of_ne htick hassert hack hr,
    fun hcoin hservice hassert hack => nmiAfter_of_ne hcoin hservice hassert hack hr,
    fun hne => effect_bank_of_ne hne hr, fun hne => effect_disp_of_ne hne hr, fun hne => wramAfter_of_ne hne hr⟩

/-- Settles O41: two states that differ in the output fields are equal under the mask, and so are their effects. -/
theorem outputFieldsInfluenceNothing : Obligations.OutputFieldsInfluenceNothing := by
  intro s t i lock c1 c2 tone n hp h
  obtain ⟨hr, hi, hl, rfl⟩ := exec_next_live hp h
  refine ⟨_, exec_of_ready (s := { s with lockout := lock, cut1 := c1, cut2 := c2, toneEn := tone, coinCnt := n })
    ⟨hr.wf, hr.live⟩ hi hl, ?_⟩
  exact State.fields_of_maskOutputs_eq ((effect_maskOutputs i _).trans (effect_maskOutputs i s).symm)

/-- Settles O42: the replies of the five reads agree where the five fields they see agree. -/
theorem busReadsSeeOnlyMemoryAndBank : Obligations.BusReadsSeeOnlyMemoryAndBank := by
  intro s s' t t' i hs hs' hcfg hprog hdbank hwram hbank hi h h'
  obtain ⟨-, -, -, rfl⟩ := exec_next_live hs.live h
  obtain ⟨-, -, -, rfl⟩ := exec_next_live hs'.live h'
  exact effect_reply_of_memory_read hcfg hprog hdbank hwram hbank hi

/-- Settles O43: no read, `OBS` or `RENDER` is a `LOAD`, and the effect of each is a reply and a draw. -/
theorem readsChangeNoState : Obligations.ReadsChangeNoState := by
  intro s t i hi h
  have hl : isLoad i = false := by
    rcases hi with hi | ⟨l, rfl⟩ | rfl
    · exact isLoad_of_isBusRead hi
    · rfl
    · rfl
  obtain ⟨-, -, rfl⟩ := exec_next_of_not_load hl h
  exact effect_of_read hi

/-- Settles O44: on a live block by the effect, before `LOAD` because `LOAD` ends in a `RESET`. -/
theorem onlyReadsReturnAValue : Obligations.OnlyReadsReturnAValue := by
  intro s t i hb ho hr h
  cases hp : s.phase with
  | live =>
    obtain ⟨-, -, hl, rfl⟩ := exec_next_live hp h
    exact effect_of_not_read hb ho hr hl
  | unloaded =>
    obtain ⟨p, d, -, -, -, -, rfl⟩ := exec_next_unloaded hp h
    exact ⟨rfl, rfl⟩

/-- Settles O45: the write runs again, and its effect is idempotent. -/
theorem writesButTheDisplaysAreIdempotent : Obligations.WritesButTheDisplaysAreIdempotent := by
  intro s t i hm hw hd h
  have hl := isLoad_of_isBusWrite hw
  obtain ⟨hr, hi, rfl⟩ := exec_next_of_not_load hl h
  obtain ⟨hr', hcfg⟩ := exec_next_ready hr.live h
  rw [exec_of_ready hr' (hcfg ▸ hi) hl, effect_effect_of_write hm hw hd]

/-- Settles O48: an operation that exists answers its effect, which is a ready state. -/
theorem everyOperationOfALiveBlockCompletes : Obligations.EveryOperationOfALiveBlockCompletes := by
  intro s i hs hi hl
  have hexec := exec_of_ready hs hi hl
  exact ⟨_, hexec, exec_next_ready hs.live hexec⟩

/-- Settles O56: each guard refuses before any operation acts. -/
theorem refusalsOutsideALiveBlock : Obligations.RefusalsOutsideALiveBlock :=
  ⟨fun _ i h => exec_of_illFormed h i, fun _ _ => exec_of_unloaded, fun _ _ => exec_of_not_wellFormed⟩

/-- Settles O57: an output is the field behind it, so each clause is the table or the frame of that field. -/
theorem outputsChangeOnlyWithTheirWriters : Obligations.OutputsChangeOnlyWithTheirWriters := by
  intro s t i hp h
  obtain ⟨-, -, -, rfl⟩ := exec_next_live hp h
  refine ⟨congrArg Cfg.toneFreq (effect_frame i s).1, effect_firq i s, effect_nmi i s, effect_toneEn i s,
    effect_coinCnt i s, effect_outctl_of_ne, effect_disp_of_ne, ?read,
    ⟨rfl, rfl, rfl, rfl, rfl, rfl, rfl, rfl, rfl⟩, ?outctl, ?disp⟩
  case read =>
    intro hb
    rw [effect_of_read (.inl hb)]
    rfl
  case outctl =>
    rintro v rfl
    exact ⟨lockoutField_eq v, cut1Field_eq v, cut2Field_eq v⟩
  case disp =>
    rintro v rfl
    exact shiftIn_toList s.disp v

end Sys2Proof.Machine
end

section
/-!
Sequences of operations: the law of the window (spec/41_bank_selector.md), the windowing law of the display
(spec/42_display_buffer.md), and the fields that follow a table along any sequence.
-/

namespace Sys2Proof.Machine

/-! ### Along a sequence -/

section Sequences

variable {s t : State} {is : List Instr}

/-- What every effect of an operation of the sequence keeps, the sequence keeps. -/
theorem execAll_keeps {P : State → Prop} (hp : s.phase = .live) (hP : ∀ i ∈ is, ∀ s, P s → P (effect i s)) (hs : P s)
    (h : execAll is s = .next t) : P t := by
  induction is generalizing s with
  | nil => cases h; exact hs
  | cons i is ih =>
    obtain ⟨u, hu, ht⟩ := execAll_cons_next.mp h
    obtain ⟨-, -, -, rfl⟩ := exec_next_live hp hu
    exact ih (exec_next_ready hp hu).1.live (fun j hj => hP j (by simp [hj])) (hP i (by simp) s hs) ht

/-- A quantity that every effect moves by a table under an invariant `P` is, along a sequence, the fold of that
table. -/
theorem execAll_foldl_of_invariant {α : Type} {P : State → Prop} {q : State → α} {after : α → Instr → α}
    (hP : ∀ i s, P s → P (effect i s)) (hq : ∀ i s, P s → q (effect i s) = after (q s) i) (hp : s.phase = .live)
    (hs : P s) (h : execAll is s = .next t) : q t = is.foldl after (q s) := by
  induction is generalizing s with
  | nil => cases h; rfl
  | cons i is ih =>
    obtain ⟨u, hu, ht⟩ := execAll_cons_next.mp h
    obtain ⟨-, -, -, rfl⟩ := exec_next_live hp hu
    rw [ih (exec_next_ready hp hu).1.live (hP i s hs) ht, hq i s hs, List.foldl_cons]

end Sequences

/-! ### The law of the window -/

theorem execAll_bank {s t : State} {is : List Instr} (hp : s.phase = .live) (hb : ∀ v, .wrBanksel v ∉ is)
    (hr : .reset ∉ is) (h : execAll is s = .next t) : t.bank = s.bank :=
  execAll_keeps (P := fun u => u.bank = s.bank) hp
    (fun _ hi _ hu => (effect_bank_of_ne (fun v e => hb v (e ▸ hi)) (fun e => hr (e ▸ hi))).trans hu) rfl h

/-- The configuration and the data bank, which no operation of a live block changes. -/
theorem execAll_cfg_dbank {s t : State} {is : List Instr} (hp : s.phase = .live) (h : execAll is s = .next t) :
    t.cfg = s.cfg ∧ t.dbank = s.dbank := by
  refine execAll_keeps (P := fun u => u.cfg = s.cfg ∧ u.dbank = s.dbank) hp (fun i _ u hu => ?_) ⟨rfl, rfl⟩ h
  obtain ⟨hcfg, -, -, hdbank, -⟩ := effect_frame i u
  exact ⟨hcfg.trans hu.1, hdbank.trans hu.2⟩

/-- An offset below `WINDOW` is that of a bus address in the low window (R3, R35). -/
theorem operandIn_low {c : Cfg} (hc : c.wf = true) {offset : Nat} (h : offset < Config.window) :
    c.operandIn (c.lowBase + offset) .low = true := by
  have he : (⟨.low, c.lowBase, Config.window⟩ : MapEntry) ∈ c.addressMap := by simp [Cfg.addressMap]
  have ha : (⟨.low, c.lowBase, Config.window⟩ : MapEntry).covers (c.lowBase + offset) = true := by
    simp [MapEntry.covers_iff, h]
  exact operandIn_iff.mpr ⟨entry_on_bus hc he ha, region_of_entry hc he ha⟩

/-- Settles O19: the bank, the image and the map are as the bank-select write left them. -/
theorem windowShowsTheLastBankSelected : Obligations.WindowShowsTheLastBankSelected := by
  intro s t u v between offset hsel hrun hbanksel hreset hoff
  obtain ⟨hs, -, heffect⟩ := exec_next_of_not_load rfl hsel
  obtain ⟨ht, htcfg⟩ := exec_next_ready hs.live hsel
  obtain ⟨hucfg, hudbank⟩ := execAll_cfg_dbank ht.live hrun
  have hcfg : u.cfg = s.cfg := hucfg.trans htcfg
  have hu : u.Ready := ⟨hcfg ▸ hs.wf, execAll_next_live ht.live hrun⟩
  have hdbank : u.dbank = s.dbank := by
    rw [hudbank, heffect]
    rfl
  have hbank : u.bank = bankField v := by
    rw [execAll_bank ht.live hbanksel hreset hrun, heffect]
    rfl
  have hindex : dbankIndex u.cfg u.bank (s.cfg.lowBase + offset) = v.toNat % 4 * 24576 + offset := by
    rw [dbankIndex, lowOffset, hcfg, hbank, bankField_toNat, Nat.add_sub_cancel_left, Config.window]
  have hop : (Instr.rdLow (s.cfg.lowBase + offset)).wellFormed u.cfg = true := hcfg ▸ operandIn_low hs.wf hoff
  rw [exec_of_ready hu hop rfl, ← hindex, ← hdbank]
  rfl

/-! ### The windowing law of the display -/

theorem displayWrites_cons (i : Instr) (is : List Instr) :
    displayWrites (i :: is) = displayWrites [i] ++ displayWrites is := by
  cases i <;> rfl

/-- One operation shifts in the bytes it writes to the display: one for `WR_DISP`, none for the others. -/
theorem effect_disp_toList {i : Instr} (hr : i ≠ .reset) (s : State) :
    (effect i s).disp.toList = (s.disp.toList ++ displayWrites [i]).drop (displayWrites [i]).length := by
  cases i with
  | wrDisp v =>
    have hlen : 1 ≤ s.disp.toList.length := by simp
    exact (List.drop_append_of_le_length hlen).symm
  | _ =>
    rw [effect_disp_of_ne (by simp) hr]
    simp [displayWrites]

/-- Along a sequence the cells are the end of the old cells followed by the bytes written (R112). -/
theorem execAll_disp_toList {s t : State} {is : List Instr} (hp : s.phase = .live) (hr : .reset ∉ is)
    (h : execAll is s = .next t) :
    t.disp.toList = (s.disp.toList ++ displayWrites is).drop (displayWrites is).length := by
  induction is generalizing s with
  | nil => cases h; simp [displayWrites]
  | cons i is ih =>
    obtain ⟨hi, his⟩ := not_or.mp (mt List.mem_cons.mpr hr)
    obtain ⟨u, hu, ht⟩ := execAll_cons_next.mp h
    obtain ⟨-, -, -, rfl⟩ := exec_next_live hp hu
    have hle : (displayWrites [i]).length ≤ (s.disp.toList ++ displayWrites [i]).length := by simp
    rw [ih (exec_next_ready hp hu).1.live his ht, effect_disp_toList (Ne.symm hi), displayWrites_cons i is,
      ← List.drop_append_of_le_length hle, List.drop_drop, List.append_assoc, List.length_append]

/-- Settles O22: the end of the twenty old cells and the bytes written, cut where the bytes alone fill the line. -/
theorem displayHoldsTheLastTwentyBytes : Obligations.DisplayHoldsTheLastTwentyBytes := by
  intro s t is h hp hr
  have hlen : s.disp.toList.length = 20 := by simp
  rw [execAll_disp_toList hp hr h, List.drop_append, hlen]
  refine ⟨fun hn => ?_, fun hn => ?_⟩
  · rw [List.drop_of_length_le (by omega), List.nil_append]
  · rw [Nat.sub_eq_zero_of_le (by omega), List.drop_zero]

/-! ### Folds of a table -/

/-- Settles O39: counter and enable are the folds of their tables. -/
theorem counterAndToneFollowTheirOperations : Obligations.CounterAndToneFollowTheirOperations := by
  intro s t is hp h
  have hcount := execAll_foldl effect_coinCnt hp h
  exact ⟨hcount, execAll_foldl effect_toneEn hp h, fun hr => hcount.trans (foldl_coinCntAfter hr _)⟩

/-- Settles O46: each byte is the fold of its table, the canonical form being kept along the way. -/
theorem wramHoldsTheLastByteStored : Obligations.WramHoldsTheLastByteStored := by
  refine ⟨fun s t is k hp hm h => ?fold, fun s t k h => ?reset⟩
  case fold =>
    refine execAll_foldl_of_invariant (P := fun u => Memory.WF u.wram ∧ u.cfg = s.cfg) (q := fun u => u.wram.read k)
      (fun i u hu => ?_) (fun i u hu => ?_) hp ⟨hm, rfl⟩ h
    · exact ⟨effect_wram i u ▸ wramAfter_wf hu.1, (effect_frame i u).1.trans hu.2⟩
    · simp only [effect_wram, wramAfter_read hu.1, hu.2]
  case reset =>
    obtain ⟨-, -, rfl⟩ := exec_next_of_not_load rfl h
    rfl

end Sys2Proof.Machine
end

section
/-!
Steps and traces: what a step does with what is presented (spec/30_encoding.md section 6), progress along a trace
(spec/20_memory.md section 4), and the invariant of spec/10_state.md R25.
-/

namespace Sys2Proof.Machine

/-! ### One step -/

section Step

variable {s t : State} {e : Event} {rest : List Event} {i : Instr}

theorem step_of_trace_nil (h : s.trace = []) : step s = .next s := by
  rw [step, h]

theorem step_of_decode (ht : s.trace = e :: rest) (hi : decodeEvent s.cfg e = .ok i) :
    step s = exec i { s with trace := rest } := by
  simp only [step, ht, hi]

theorem step_of_reject {r : DecodeReject} (ht : s.trace = e :: rest) (hr : decodeEvent s.cfg e = .error r) :
    step s = .refused (.undecodable r) := by
  simp only [step, ht, hr]

/-- On a ready block the operation presented next has its effect, with the rest of the trace still to come. -/
theorem step_of_ready (hs : s.Ready) (ht : s.trace = e :: rest) (hd : decodeEvent s.cfg e = .ok i)
    (hi : i.wellFormed s.cfg = true) (hl : isLoad i = false) :
    step s = .next (effect i { s with trace := rest }) :=
  (step_of_decode ht hd).trans (exec_of_ready (s := { s with trace := rest }) ⟨hs.wf, hs.live⟩ hi hl)

/-- What a block serves is what decodes to an operation that exists, `LOAD` apart (R57). -/
theorem decodeEvent_of_servable {c : Cfg} (h : eventServable c e = true) :
    ∃ i, decodeEvent c e = .ok i ∧ i.wellFormed c = true ∧ isLoad i = false := by
  cases e with
  | bus w =>
    obtain ⟨i, hi⟩ := decodeWord_of_lt (of_decide_eq_true h)
    refine ⟨i, hi, decodeWord_wellFormed hi, ?_⟩
    rcases decodeWord_isBus hi with hr | hw
    · exact isLoad_of_isBusRead hr
    · exact isLoad_of_isBusWrite hw
  | load p d => cases h
  | _ => exact ⟨_, rfl, rfl, rfl⟩

/-- Progress: a ready block serves what is presented in one step and is ready for the rest. -/
theorem step_of_servable (hs : s.Ready) (ht : s.trace = e :: rest) (he : eventServable s.cfg e = true) :
    ∃ u, step s = .next u ∧ u.trace = rest ∧ u.Ready ∧ u.cfg = s.cfg := by
  obtain ⟨i, hdecode, hi, hl⟩ := decodeEvent_of_servable he
  obtain ⟨hcfg, hphase, -, -, -, htrace⟩ := effect_frame i { s with trace := rest }
  exact ⟨_, step_of_ready hs ht hdecode hi hl, htrace, ⟨(congrArg Cfg.wf hcfg).trans hs.wf, hphase.trans hs.live⟩, hcfg⟩

theorem runSteps_two {u : State} (h : step s = .next t) (h' : step t = .next u) : runSteps 2 s = .next u := by
  rw [runSteps_succ h, runSteps_succ h', runSteps]

theorem runSteps_of_servable (es : List Event) (hs : s.Ready) (ht : s.trace = es)
    (hes : ∀ e ∈ es, eventServable s.cfg e = true) :
    ∃ t, runSteps es.length s = .next t ∧ t.trace = [] ∧ t.Ready ∧ t.cfg = s.cfg := by
  induction es generalizing s with
  | nil => exact ⟨s, rfl, ht, hs, rfl⟩
  | cons e es ih =>
    obtain ⟨u, hstep, htrace, hu, hcfg⟩ := step_of_servable hs ht (hes e (by simp))
    obtain ⟨t, hrun, htnil, htready, htcfg⟩ := ih hu htrace fun f hf => hcfg ▸ hes f (by simp [hf])
    exact ⟨t, (runSteps_succ hstep _).trans hrun, htnil, htready, htcfg.trans hcfg⟩

end Step

/-! ### The bus master (43_interrupt_lines.md section 4) -/

section BusMaster

variable {i : Instr}

/-- What the bus master presents is a bus read, a bus write or `OBS`. -/
theorem operation_of_busMaster {c : Cfg} {e : Event} (ha : e.agent = .busMaster) (hi : decodeEvent c e = .ok i) :
    isBusRead i = true ∨ isBusWrite i = true ∨ ∃ l, i = .obs l := by
  cases e with
  | bus w => exact (decodeWord_isBus hi).imp_right .inl
  | obs l => exact .inr (.inr ⟨l, (Except.ok.inj hi).symm⟩)
  | assertLine l => cases l <;> cases ha
  | _ => cases ha

/-- No row of the tables R120 and R152 lets such an operation set a latch or count. -/
theorem tables_of_busMaster (h : isBusRead i = true ∨ isBusWrite i = true ∨ ∃ l, i = .obs l) (f n : Bool) (k : Nat) :
    (firqAfter f i = true → f = true) ∧ (nmiAfter n i = true → n = true) ∧ coinCntAfter k i = k := by
  cases i with
  | wrFirqack v => exact ⟨(nomatch ·), id, rfl⟩
  | wrNmiack v => exact ⟨id, (nomatch ·), rfl⟩
  | tick | coin | service | assertLine | reset => simp [isBusRead, isBusWrite] at h
  | _ => exact ⟨id, id, rfl⟩

theorem isLoad_of_busMaster (h : isBusRead i = true ∨ isBusWrite i = true ∨ ∃ l, i = .obs l) : isLoad i = false := by
  rcases h with h | h | ⟨l, rfl⟩
  · exact isLoad_of_isBusRead h
  · exact isLoad_of_isBusWrite h
  · rfl

end BusMaster

/-! ### The invariant of R25 -/

section Invariant

variable {s t : State} {i : Instr}

/-- The invariant says nothing of the trace. -/
theorem State.Inv.with_trace (h : s.Inv) (es : List Event) : ({ s with trace := es } : State).Inv :=
  ⟨h.cfg_wf, h.prog_wf, h.dbank_wf, h.wram_wf, h.prog_within, h.dbank_within, h.wram_within, h.term_const⟩

/-- An effect leaves everything the invariant speaks of as it was, except `WRAM`, which it keeps canonical and within
its size. -/
theorem effect_keeps_inv (h : s.Inv) (hi : i.wellFormed s.cfg = true) : (effect i s).Inv := by
  obtain ⟨hcfg, hphase, hprog, hdbank, hterm, -⟩ := effect_frame i s
  constructor
  case cfg_wf => rw [hcfg]; exact h.cfg_wf
  case prog_wf => rw [hprog]; exact h.prog_wf
  case dbank_wf => rw [hdbank]; exact h.dbank_wf
  case wram_wf => rw [effect_wram]; exact wramAfter_wf h.wram_wf
  case prog_within => rw [hprog, hcfg]; exact h.prog_within
  case dbank_within => rw [hdbank]; exact h.dbank_within
  case wram_within => rw [effect_wram, hcfg]; exact wramAfter_within hi h.wram_within
  case term_const => rw [hphase, hterm, hcfg]; exact h.term_const

/-- A `LOAD` of images of the right sizes establishes the invariant (R184). -/
theorem load_establishes_inv {p d : List Byte} (hc : s.cfg.wf = true) (hp : p.length = s.cfg.progSize)
    (hd : d.length = Config.dbankSize) :
    ({ s with phase := .live, prog := Memory.ofBytes p, dbank := Memory.ofBytes d,
              dispTerm := s.cfg.dispTerm } : State).resetBlock.Inv where
  cfg_wf := hc
  prog_wf := Memory.ofBytes_wf p
  dbank_wf := Memory.ofBytes_wf d
  wram_wf := Memory.wf_nil
  prog_within := hp ▸ Memory.ofBytes_within p
  dbank_within := hd ▸ Memory.ofBytes_within d
  wram_within := by simp
  term_const := fun _ => rfl

/-- Every operation that answers keeps the invariant. -/
theorem exec_keeps_inv (h : s.Inv) (hexec : exec i s = .next t) : t.Inv := by
  cases hp : s.phase with
  | live =>
    obtain ⟨-, hi, -, rfl⟩ := exec_next_live hp hexec
    exact effect_keeps_inv h hi
  | unloaded =>
    obtain ⟨p, d, -, hc, hplen, hdlen, rfl⟩ := exec_next_unloaded hp hexec
    exact load_establishes_inv hc hplen hdlen

end Invariant

/-! ### The obligations -/

/-- Settles O49: progress at each event, by induction along the trace. -/
theorem everyTraceRunsToItsEnd : Obligations.EveryTraceRunsToItsEnd :=
  fun s hs h => runSteps_of_servable s.trace hs rfl h

/-- Settles O50: a step idles or runs one operation, and each operation keeps or establishes the invariant. -/
theorem invariantIsKept : Obligations.InvariantIsKept := by
  intro s t h hstep
  rcases step_next hstep with ⟨-, rfl⟩ | ⟨e, rest, i, -, -, hexec⟩
  · exact h
  · exact exec_keeps_inv (h.with_trace rest) hexec

/-- Settles O51: every clause is closed, `REFMAP` and the empty memories being literals. -/
theorem invariantHoldsAtReset : Obligations.InvariantHoldsAtReset := by
  have hreset : State.reset.Inv :=
    ⟨by decide, by decide, by decide, by decide, by decide, by decide, by decide, fun _ => rfl⟩
  exact ⟨hreset, hreset.cfg_wf, hreset.prog_wf, hreset.dbank_wf, hreset.wram_wf, hreset.prog_within,
    hreset.dbank_within, hreset.wram_within, fun _ => rfl⟩

/-- Settles O36: what the bus master presents has no row in the tables that sets or counts. -/
theorem busMasterNeverSetsALatch : Obligations.BusMasterNeverSetsALatch := by
  intro s t e rest htrace hagent hstep
  rcases step_next hstep with ⟨hnil, -⟩ | ⟨e', rest', i, htrace', hdecode, hexec⟩
  · rw [htrace] at hnil
    cases hnil
  · obtain ⟨rfl, rfl⟩ := List.cons.inj (htrace.symm.trans htrace')
    have hi := operation_of_busMaster hagent hdecode
    obtain ⟨-, -, rfl⟩ := exec_next_of_not_load (isLoad_of_busMaster hi) hexec
    rw [effect_firq, effect_nmi, effect_coinCnt]
    exact tables_of_busMaster hi s.firq s.nmi s.coinCnt

/-- Settles O47: a step idles or has an effect, which keeps all of these. -/
theorem imagesAndConfigurationNeverChange : Obligations.ImagesAndConfigurationNeverChange := by
  intro s t hp hstep
  rcases step_next hstep with ⟨-, rfl⟩ | ⟨e, rest, i, -, -, hexec⟩
  · exact ⟨rfl, rfl, rfl, rfl, hp⟩
  · obtain ⟨-, -, -, rfl⟩ := exec_next_live (s := { s with trace := rest }) hp hexec
    obtain ⟨hcfg, hphase, hprog, hdbank, hterm, -⟩ := effect_frame i { s with trace := rest }
    exact ⟨hprog, hdbank, hterm, hcfg, hphase.trans hp⟩

/-- Settles O8: the two ways of presenting an operation are one step lemma. -/
theorem stepRunsThePresentedOperation : Obligations.StepRunsThePresentedOperation :=
  ⟨fun _ _ _ _ htrace hdecode => step_of_decode htrace hdecode,
    fun s n w _ hdecode => step_of_decode (s := s.withFetchWord n w) (e := .bus w) rfl hdecode⟩

/-- Settles O9: the two remaining cases of a step. -/
theorem stepIdlesOrRefusesNonTransactions : Obligations.StepIdlesOrRefusesNonTransactions :=
  ⟨fun _ => step_of_trace_nil, fun _ w _ htrace hw => step_of_reject (e := .bus w) htrace (decodeWord_of_ge hw)⟩

end Sys2Proof.Machine
end

section
/-!
Single operations on a ready block: the register addresses not met before (spec/41_bank_selector.md,
spec/44_peripheral_registers.md), working memory and the free-valued reads (spec/40_dispatcher.md), the edges of the
switches (spec/43_interrupt_lines.md), and `RESET` and `LOAD` (spec/70_reset_and_hazards.md).
-/

namespace Sys2Proof.Machine

/-! ### Rows of the register addresses (R54) -/

section Rows

variable {c : Cfg}

theorem decodeWrite_aBanksel (hc : c.wf = true) (v : Byte) : decodeWrite c c.aBanksel v = .wrBanksel v :=
  decodeWrite_of_region (operandIn_iff.mp (region_banksel hc)).2 v

theorem decodeWrite_aDipsw (hc : c.wf = true) (v : Byte) : decodeWrite c c.aDipsw v = .wrOutctl v :=
  decodeWrite_of_region (operandIn_iff.mp (region_dipsw hc)).2 v

theorem decodeWrite_aToneOn (hc : c.wf = true) (v : Byte) : decodeWrite c c.aToneOn v = .wrToneOn v :=
  decodeWrite_of_region (operandIn_iff.mp (region_toneOn hc)).2 v

theorem decodeWrite_aToneOff (hc : c.wf = true) (v : Byte) : decodeWrite c c.aToneOff v = .wrToneOff v :=
  decodeWrite_of_region (operandIn_iff.mp (region_toneOff hc)).2 v

end Rows

theorem bankField_eq (v : Byte) : bankField v = BitVec.ofNat 2 (v.toNat % 4) := by
  apply BitVec.eq_of_toNat_eq
  simp [bankField_toNat]

/-! ### Memory and free-valued reads -/

/-- Settles O11: the effect of `RD_WRAM` is the reply alone. -/
theorem rdWramReturnsTheStoredByte : Obligations.RdWramReturnsTheStoredByte :=
  fun _ _ h ha hr => exec_of_ready h (operandIn_iff.mpr ⟨ha, hr⟩) rfl

/-- Settles O13: the memory of the effect is one canonical write, which reads back as stated. -/
theorem wrWramStoresExactlyOneByte : Obligations.WrWramStoresExactlyOneByte :=
  fun _ a v h hm ha hr =>
    ⟨_, exec_of_ready h (operandIn_iff.mpr ⟨ha, hr⟩) rfl, fun k => Memory.read_write hm (wramIndex _ a) k v⟩

/-- Settles O15: the effect of each is an open-bus read at its own address. -/
theorem openBusReadsReturnSomeByte : Obligations.OpenBusReadsReturnSomeByte :=
  fun _ _ h ha =>
    ⟨fun hr => ⟨_, exec_of_ready h (operandIn_iff.mpr ⟨ha, hr⟩) rfl⟩,
      fun hr => ⟨_, exec_of_ready h (operandIn_iff.mpr ⟨ha, hr⟩) rfl⟩,
      ⟨_, exec_of_ready h rfl rfl⟩, ⟨_, exec_of_ready h rfl rfl⟩, ⟨_, exec_of_ready h rfl rfl⟩⟩

/-- Settles O16: the effect of each is a read of its own vector. -/
theorem inputReadsReturnSomeByte : Obligations.InputReadsReturnSomeByte :=
  fun _ h => ⟨exec_of_ready h rfl rfl, exec_of_ready h rfl rfl, exec_of_ready h rfl rfl, exec_of_ready h rfl rfl⟩

/-! ### Registers -/

/-- Settles O18: the write is its row of R54, and its effect sets the bank alone. -/
theorem wrBankselKeepsTheTwoLowBits : Obligations.WrBankselKeepsTheTwoLowBits := by
  intro s v h
  rw [← bankField_eq]
  exact writeTransaction_of_ready h (operandIn_iff.mp (region_banksel h.wf)).1 (decodeWrite_aBanksel h.wf v)

/-- Settles O37: the write is its row of R54, and its effect sets the three fields alone. -/
theorem wrOutctlWritesTheThreeFields : Obligations.WrOutctlWritesTheThreeFields := by
  intro s v h
  rw [← lockoutField_eq, ← cut1Field_eq, ← cut2Field_eq]
  exact writeTransaction_of_ready h (operandIn_iff.mp (region_dipsw h.wf)).1 (decodeWrite_aDipsw h.wf v)

/-- Settles O38: each write is its row of R54, and its effect sets the enable alone. -/
theorem toneWritesSetTheEnable : Obligations.ToneWritesSetTheEnable := by
  intro s v h
  obtain ⟨hdecodeOn, hexecOn⟩ :=
    writeTransaction_of_ready h (operandIn_iff.mp (region_toneOn h.wf)).1 (decodeWrite_aToneOn h.wf v)
  obtain ⟨hdecodeOff, hexecOff⟩ :=
    writeTransaction_of_ready h (operandIn_iff.mp (region_toneOff h.wf)).1 (decodeWrite_aToneOff h.wf v)
  exact ⟨hdecodeOn, hexecOn, hdecodeOff, hexecOff⟩

/-! ### Signals -/

/-- Settles O23: `RENDER` needs no decoding, and its effect is the reply alone. -/
theorem renderReturnsTheTwentyCells : Obligations.RenderReturnsTheTwentyCells :=
  fun _ h => ⟨rfl, exec_of_ready h rfl rfl⟩

/-- Settles O27: the effects of the two edges. -/
theorem coinReleaseSetsNmiAndCounts : Obligations.CoinReleaseSetsNmiAndCounts :=
  fun _ h => ⟨exec_of_ready h rfl rfl, exec_of_ready h rfl rfl⟩

/-- Settles O28: the effects of the two edges. -/
theorem serviceReleaseSetsNmi : Obligations.ServiceReleaseSetsNmi :=
  fun _ h => ⟨exec_of_ready h rfl rfl, exec_of_ready h rfl rfl⟩

/-- Settles O29: the press edge empties the reply alone, and the release edge has the effect of O27 or O28. -/
theorem switchPressesSetNmiOnRelease : Obligations.SwitchPressesSetNmiOnRelease := by
  refine fun s rest h => ⟨fun ht => ?coin, fun ht => ?service⟩
  case coin =>
    exact runSteps_two (step_of_ready h ht rfl rfl rfl)
      (step_of_ready (s := effect (.coin false) { s with trace := .coin true :: rest }) ⟨h.wf, h.live⟩ rfl rfl rfl rfl)
  case service =>
    exact runSteps_two (step_of_ready h ht rfl rfl rfl)
      (step_of_ready (s := effect (.service false) { s with trace := .service true :: rest }) ⟨h.wf, h.live⟩
        rfl rfl rfl rfl)

/-- Settles O30: the effect raises the named line, and a word decodes to a bus read or a bus write. -/
theorem assertSetsTheNamedLatch : Obligations.AssertSetsTheNamedLatch := by
  refine ⟨fun s h => ⟨exec_of_ready h rfl rfl, exec_of_ready h rfl rfl⟩, fun c w l hdecode => ?_⟩
  rcases decodeWord_isBus hdecode with hr | hw
  · cases hr
  · cases hw

/-- Settles O31: the effect is the reply alone. -/
theorem obsReturnsTheLevelOfTheLine : Obligations.ObsReturnsTheLevelOfTheLine :=
  fun _ h => ⟨exec_of_ready h rfl rfl, exec_of_ready h rfl rfl⟩

/-! ### `RESET` and `LOAD` -/

theorem resetBlock_disp_toList (s : State) : s.resetBlock.disp.toList = List.replicate 20 s.cfg.space := by
  simp

/-- `LOAD` of images of the right sizes, before any other operation (R184). -/
theorem exec_load_of_sizes {s : State} {p d : List Byte} (hc : s.cfg.wf = true) (hs : s.phase = .unloaded)
    (hp : p.length = s.cfg.progSize) (hd : d.length = Config.dbankSize) :
    exec (.load p d) s = .next ({ s with phase := .live, prog := Memory.ofBytes p, dbank := Memory.ofBytes d,
                                         dispTerm := s.cfg.dispTerm } : State).resetBlock := by
  simp only [exec, execLoad, hc, hs, hp, hd, if_true]

/-- Settles O52: `RESET` needs no decoding, and its effect is the reset block. -/
theorem resetGivesTheResetState : Obligations.ResetGivesTheResetState :=
  fun s h => ⟨rfl, s.resetBlock, exec_of_ready h rfl rfl, rfl, fun _ => rfl, resetBlock_disp_toList s⟩

/-- Settles O53: the fields are literals. -/
theorem resetStateHasTheResetValues : Obligations.ResetStateHasTheResetValues :=
  ⟨rfl, rfl, fun _ => rfl, by decide, rfl, rfl, rfl, rfl, rfl, rfl, rfl, rfl, ⟨by decide, rfl⟩⟩

/-- Settles O54: the loaded images read byte for byte, and the rest is the reset block. -/
theorem loadFixesTheImagesAndResets : Obligations.LoadFixesTheImagesAndResets :=
  fun _ p d hc hs hp hd => ⟨_, exec_load_of_sizes hc hs hp hd, Memory.ofBytes_read p, Memory.ofBytes_read d, rfl,
    fun _ => rfl, resetBlock_disp_toList _, ⟨hc, rfl⟩⟩

/-- Settles O55: the guards of `LOAD`, in the model's order. -/
theorem loadRefusesWrongSizesAndRepeats : Obligations.LoadRefusesWrongSizesAndRepeats := by
  intro s p d hc
  refine ⟨fun hs hp => ?program, fun hs hp hd => ?databank, fun hs => ?repeated⟩
  case program => simp only [exec, execLoad, hc, hs, hp, if_true, if_false]
  case databank =>
    have hd : ¬ d.length = Config.dbankSize := hd
    simp only [exec, execLoad, hc, hs, hp, hd, if_true, if_false]
  case repeated => simp only [exec, execLoad, hc, hs, if_true]

end Sys2Proof.Machine
end
